-- ==== Sys2Proof/Word.lean ====
section
/-! DEFINITION. The word types of the block (00_scope.md rule R10). -/

namespace Sys2Proof

/-- One element of the command buffer, and every 8-bit quantity: u8. -/
abbrev Byte := BitVec 8

/-- The button mask: u16. -/
abbrev HalfWord := BitVec 16

/-- A polling word or a direct-command word: u32. -/
abbrev Word := BitVec 32

end Sys2Proof
end

