-- ==== Sys2Proof/Config.lean ====
section
/-! DEFINITION. What is fixed for one machine: the configuration of 00_scope.md rule R8, the input sample's shape, and the free
values the collaborators answer with. -/

namespace Sys2Proof

/-- The closed set of device variants (00_scope.md rule R2, 40_device_interface.md rule R104). -/
inductive Variant where
  | standardController
  | dummy
deriving DecidableEq, Repr, Inhabited

/-- How "the bounds supplied by the caller" is read (20_memory.md rule R59). -/
inductive BoundsPolicy where
  | capacity
  | length
deriving DecidableEq, Repr, Inhabited

/-- The checks a configuration must pass (60_exceptions.md rule R207, `ConfigRefused(check)`). -/
inductive ConfigCheck where
  /-- the command codes are not distinct (00_scope.md rule R9) -/
  | codesDistinct
  /-- `ORIGIN_LEN < 8` -/
  | originLen
  /-- `BUF_CAP` is not a multiple of 4, or is below 4 -/
  | bufCap
deriving DecidableEq, Repr, Inhabited

/-- DIRECT_LAYOUT (30_encoding.md rule R74): the lowest bit of each of the three 8-bit fields of a direct-command word.
DESIGN CHOICE (assumption log entry 6), safe. -/
structure DirectLayout where
  cmdLo : Nat
  p1Lo  : Nat
  p2Lo  : Nat
deriving DecidableEq, Repr, Inhabited

/-- ORIGIN_LAYOUT (10_state.md rule R24): the byte offset of each of the seven named fields of the origin record.
DESIGN CHOICE (assumption log entry 6), safe. -/
structure OriginLayout where
  uCommand         : Nat
  originStickX     : Nat
  originStickY     : Nat
  originSubStickX  : Nat
  originSubStickY  : Nat
  originTriggerL   : Nat
  originTriggerR   : Nat
deriving DecidableEq, Repr, Inhabited

/-- The implementation parameters of 00_scope.md rule R8. `traceEnabled` is an argument of `Construct`; the two oracles are
the free values below. -/
structure Config where
  bufCap             : Nat
  boundsPolicy       : BoundsPolicy
  numPorts           : Nat
  originLen          : Nat
  originLayout       : OriginLayout
  cmdReset           : Byte
  cmdOrigin          : Byte
  cmdRecalibrate     : Byte
  cmdConsoleSpecific : Byte
  idWord             : Word
  dcmdNop            : Byte
  dcmdRumble         : Byte
  directLayout       : DirectLayout
deriving DecidableEq, Repr, Inhabited

/-- dcmd = w[23:16], p1 = w[7:0], p2 = w[15:8] (30_encoding.md rule R74). -/
def DirectLayout.default : DirectLayout := { cmdLo := 16, p1Lo := 0, p2Lo := 8 }

/-- The offsets of 10_state.md rule R24. -/
def OriginLayout.default : OriginLayout :=
  { uCommand := 0, originStickX := 2, originStickY := 3, originSubStickX := 4, originSubStickY := 5,
    originTriggerL := 6, originTriggerR := 7 }

/-- The default value of every parameter (00_scope.md rule R8). PRESUMED by the spec itself for the values it marks as general
knowledge (assumption log entry 5), unsafe for claims that rest on one value. -/
def Config.default : Config :=
  { bufCap := 128, boundsPolicy := .capacity, numPorts := 4, originLen := 12, originLayout := .default,
    cmdReset := 0x00#8, cmdOrigin := 0x41#8, cmdRecalibrate := 0x42#8, cmdConsoleSpecific := 0xCE#8,
    idWord := 0x09000000#32, dcmdNop := 0x00#8, dcmdRumble := 0x40#8, directLayout := .default }

/-- The record the input-backend oracle supplies (42_std_polling.md rule R149). -/
structure InputSample where
  stickX    : Byte
  stickY    : Byte
  subStickX : Byte
  subStickY : Byte
  triggerL  : Byte
  triggerR  : Byte
  buttons   : HalfWord
  micButton : Bool
deriving DecidableEq, Repr, Inhabited

/-- FREE VALUE (assumption log entry 9), safe: the answer of the input-backend of a port to the draw of a given number. Any sample
(60_exceptions.md rule R214). -/
opaque Config.freeSample : Nat → Nat → InputSample

/-- FREE VALUE (assumption log entry 10), safe: whether the rumble actuator of a port is available at the draw of a given number.
Any Bool (60_exceptions.md rule R216). -/
opaque Config.freeAvail : Nat → Nat → Bool

/-- What a buffer byte reads as that nobody has written. DESIGN CHOICE (assumption log entry 7), unsafe: the spec gives the host's
buffer no contents. -/
def Config.unlistedByte : Byte := 0x00#8

end Sys2Proof
end

