-- ==== Sys2Proof/Syntax.lean ====
section
/-! DEFINITION. The operations of the block, one constructor per row of spec/opcode_table.json (30_encoding.md rule R88). The
commands of the formats BUF8 and DIR32 and the trace hook run inside a call that is in progress, so they name no port; a METHOD
row is a call of the host and names the port whose device receives it. -/

namespace Sys2Proof

/-- One operation. -/
inductive Instr where
  /-- RESET (41_std_buffer_commands.md rule R122) -/
  | reset
  /-- ORIGIN (rule R123) -/
  | origin
  /-- RECALIBRATE (rule R124) -/
  | recalibrate
  /-- CONSOLE_SPECIFIC (rule R125) -/
  | consoleSpecific
  /-- UNKNOWN_BUF (rule R126), with the command byte read -/
  | unknownBuf (cmd : Byte)
  /-- DNOP (43_std_direct_commands.md rule R171), with its two ignored parameters -/
  | dnop (p1 p2 : Byte)
  /-- RUMBLE (rule R172): motor mode and strength -/
  | rumble (p1 p2 : Byte)
  /-- UNKNOWN_DIR (rule R173), with the whole raw word -/
  | unknownDir (w : Word)
  /-- STD_RUNBUFFER (41_std_buffer_commands.md rule R120) -/
  | stdRunBuffer (port len : Nat)
  /-- STD_GETDATA (42_std_polling.md rule R150) -/
  | stdGetData (port : Nat)
  /-- STD_SENDCOMMAND (43_std_direct_commands.md rule R170) -/
  | stdSendCommand (port : Nat) (w : Word)
  /-- DUMMY_RUNBUFFER (44_dummy_device.md rule R190) -/
  | dummyRunBuffer (port len : Nat)
  /-- DUMMY_GETDATA (rule R191) -/
  | dummyGetData (port : Nat)
  /-- DUMMY_SENDCOMMAND (rule R192), with its ignored word -/
  | dummySendCommand (port : Nat) (w : Word)
  /-- CONSTRUCT (70_reset_and_hazards.md rule R230) -/
  | construct (variant : Variant) (port : Nat) (traceEnabled : Bool)
  /-- TRACE_HOOK (40_device_interface.md rule R105), over the bytes of the RunBuffer call in progress -/
  | traceHook
deriving DecidableEq, Repr

end Sys2Proof
end

