-- ==== Sys2Proof/Machine/State.lean ====
section
/-! DEFINITION. Everything the spec gives the machine, as plain data, and the machine right after reset. INVENTORY.md, '## State',
lists each piece with its rule. -/

namespace Sys2Proof.Machine

/-- The model-level faults of the spec (60_exceptions.md rule R207). Raising one is a step of the machine: it ends the call with no
effect on the buffer or the host and is recorded in the device (10_state.md rule R38; assumption log entry 1). Safe: a run in
which one is raised is never good. -/
inductive FaultReason where
  /-- `RunBuffer` with `len > BUF_CAP` (20_memory.md rule R60) -/
  | lengthOutOfRange (len : Nat)
  /-- a physical access at or above the policy's bound (20_memory.md rule R52) -/
  | bufferOutOfBounds (p : Nat)
  /-- `Construct` with `port >= NUM_PORTS` (40_device_interface.md rule R103) -/
  | portOutOfRange (port : Nat)
  /-- `Construct` under a configuration that fails a check (70_reset_and_hazards.md rule R230) -/
  | configRefused (check : ConfigCheck)
deriving DecidableEq, Repr

/-- What stops the machine: there is no next state. Every one of them is safe (the model stops; nothing false can be proved of a
next state). -/
inductive Fault where
  /-- a call, or a command inside one, on a device whose fault mark is set: "no further step" (10_state.md rule R38). Raised by every
  operation on a device. Safe. -/
  | deviceFaulted (port : Nat) (r : FaultReason)
  /-- the host calls a port that holds no device (assumption log entry 14). Raised by every operation on a device. Safe. -/
  | noDevice (port : Nat)
  /-- an operation of one variant on a device of the other (assumption log entry 12); no step reaches it, since the call is
  dispatched on the variant. Raised by every operation of one variant. Safe. -/
  | wrongVariant (port : Nat)
  /-- a call while another is in progress (70_reset_and_hazards.md rule R238, assumption log entry 13); no step reaches it from
  reset. Raised by every METHOD operation and by the host's own actions. Safe. -/
  | overlappingCall
  /-- a command or the trace hook outside the call it runs in (assumption log entry 12); no step reaches it. Raised by the BUF8 and
  DIR32 commands and the trace hook. Safe. -/
  | noOpenCall
  /-- the host reads `Hi` and `Low` when they carry no value (70_reset_and_hazards.md rule R239, assumption log entry 15). Raised by
  the host's read. Safe. -/
  | noPollingWord
  /-- the host writes at an index outside its command buffer (20_memory.md rule R51, assumption log entry 16). Raised by the host's
  write. Safe. -/
  | hostWriteOutsideBuffer (p : Nat)
deriving DecidableEq, Repr

/-- An operation without a meaning. -/
inductive Refusal where
  /-- the operation is not modelled; raised by no arm of this model. Safe. -/
  | notModelled (mnemonic : String)
deriving DecidableEq, Repr

/-- The command buffer's bytes by physical index (20_memory.md rule R52), rising, none equal to `Config.unlistedByte`. -/
abbrev Memory := List Host.Cell

/-- The observable outputs of the block (60_exceptions.md rule R200). -/
inductive Event where
  | trace (port : Nat) (bytes : List Byte)
  | consoleSpecificIgnored (port : Nat) (cmd : Byte)
  | unrecognizedBufferCommand (port : Nat) (cmd : Byte)
  | unrecognizedDirectCommand (port : Nat) (w : Word)
  | inputSampled (port : Nat) (sample : InputSample)
  | micButton (port : Nat) (b : Bool)
  | rumble (port : Nat) (p1 p2 : Byte)
  | rumbleProbe (port : Nat) (avail : Bool)
deriving DecidableEq, Repr

/-- The source's two error kinds, and there is no other (60_exceptions.md rules R201, R202, R206). -/
inductive ErrorKind where
  /-- a command byte that matches none of the four codes -/
  | unrecognizedBufferCommand
  /-- a direct code that matches neither of the two -/
  | unrecognizedDirectCommand
deriving DecidableEq, Repr

/-- `DeviceState` (10_state.md rule R20). `origin` is empty for a dummy (10_state.md rule R27, assumption log entry 20). -/
structure Device where
  variant      : Variant
  port         : Nat
  origin       : List Byte
  traceEnabled : Bool
  faulted      : Option FaultReason
deriving DecidableEq, Repr

/-- The kind of a call in progress, with the transient state of a `RunBuffer` call: its length and the cursor (10_state.md rules
R30, R37). -/
inductive Frame where
  | runBuffer (len pos : Nat)
  | getData
  | sendCommand
deriving DecidableEq, Repr

/-- A call in progress: the device's port, its transient state, and the events it has produced so far (60_exceptions.md rule
R200). -/
structure OpenCall where
  port   : Nat
  frame  : Frame
  events : List Event
deriving DecidableEq, Repr

/-- How the last call ended, as the host sees it (40_device_interface.md rules R100 to R103; assumption log entry 18). -/
inductive CallResult where
  /-- `RunBuffer` returned this count -/
  | consumed (n : Nat)
  /-- `GetData` returned; the values stand in `State.polling` -/
  | polled
  /-- `SendCommand` returned, with no value -/
  | sent
  /-- `Construct` made the device of this port -/
  | constructed (port : Nat)
  /-- the call raised this fault -/
  | faulted (r : FaultReason)
deriving DecidableEq, Repr

/-- What `GetData` gave the host (40_device_interface.md rule R101). -/
structure Polling where
  hasNewData : Bool
  hi         : Option Word
  low        : Option Word
deriving DecidableEq, Repr

/-- What the host does next: a call of an operation, a write of one byte of its own buffer between calls (10_state.md rule R37), or
a read of the polling words (70_reset_and_hazards.md rule R239). -/
inductive HostAct where
  | construct (variant : Variant) (port : Nat) (traceEnabled : Bool)
  | runBuffer (port len : Nat)
  | getData (port : Nat)
  | sendCommand (port : Nat) (w : Word)
  | writeBuf (p : Nat) (v : Byte)
  | readPolling
deriving DecidableEq, Repr

/-- The machine: the device instances, the host's buffer and the host's view, and what the environment does next. -/
structure State where
  /-- the configuration (00_scope.md rule R8); no step changes it -/
  cfg     : Config
  /-- the device instances, rising by port (60_exceptions.md rule R220) -/
  devices : List Device
  /-- the instances the host has replaced (the model's own; assumption log entry 11) -/
  retired : List Device
  /-- the command buffer (20_memory.md rule R50) -/
  buf     : Memory
  /-- what the host does next (the model's own; assumption log entry 3) -/
  host    : List HostAct
  /-- answers of the input-backend already decided (the model's own; assumption log entry 9) -/
  samples : List InputSample
  /-- answers of the actuator probe already decided (the model's own; assumption log entry 10) -/
  avails  : List Bool
  /-- how many free draws were taken (the model's own; assumption log entries 9 and 10) -/
  draws   : Nat
  /-- the call in progress; none between steps (10_state.md rule R30, 70_reset_and_hazards.md rule R232) -/
  call    : Option OpenCall
  /-- the event history (60_exceptions.md rule R200) -/
  events  : List Event
  /-- how the host's last call ended -/
  result  : Option CallResult
  /-- what the host's last `GetData` gave -/
  polling : Option Polling
deriving DecidableEq, Repr

/-- The outcome of an operation. -/
abbrev Answer := Host.Outcome State Fault Refusal

/-- The machine before any device is constructed: the default configuration, no device on any port ("Start: no device on port 0",
95_test_vectors.md P1), a buffer nobody has written, and a host that has not called yet. DESIGN CHOICE (assumption log entry 4),
unsafe only in what entry 7 says. -/
def State.reset : State :=
  { cfg := Config.default, devices := [], retired := [], buf := [], host := [], samples := [], avails := [], draws := 0,
    call := none, events := [], result := none, polling := none }

end Sys2Proof.Machine
end

