-- ==== Sys2Proof/Machine/Flags.lean ====
section
/-! DEFINITION. The two flags of the block: the Boolean result of GetData and the fixed bit of the Hi word. The block has no
condition codes (10_state.md rule R29). -/

namespace Sys2Proof.Machine

/-- `hasNewData` (10_state.md rule R33). -/
def hasNewData : Variant → Bool
  | .standardController => true
  | .dummy => false

/-- Bit 23 of `Hi`, "combined with origin" (10_state.md rule R34). -/
def combinedWithOrigin : Word := 0x00800000#32

end Sys2Proof.Machine
end

