-- ==== Sys2Proof/Machine/Operands.lean ====
section
/-! DEFINITION. Operand assembly (30_encoding.md rule R87): the polling words from an input sample, the byte order of a reply word,
and the index transform of the command buffer. -/

namespace Sys2Proof.Machine

/-- The `Hi` polling word (42_std_polling.md rule R150, 30_encoding.md rule R77). -/
def packHi (s : InputSample) : Word :=
  s.stickY.setWidth 32 ||| (s.stickX.setWidth 32 <<< 8) ||| (s.buttons.setWidth 32 <<< 16) ||| combinedWithOrigin

/-- The `Low` polling word (42_std_polling.md rule R150, 30_encoding.md rule R78). -/
def packLow (s : InputSample) : Word :=
  s.triggerR.setWidth 32 ||| (s.triggerL.setWidth 32 <<< 8) ||| (s.subStickY.setWidth 32 <<< 16) |||
    (s.subStickX.setWidth 32 <<< 24)

/-- The four bytes of a word, most significant first (20_memory.md rule R56). -/
def wordBytes (w : Word) : List Byte :=
  [w.extractLsb' 24 8, w.extractLsb' 16 8, w.extractLsb' 8 8, w.extractLsb' 0 8]

/-- The swizzle: logical index to physical index (20_memory.md rule R53). -/
def swz (i : Nat) : Nat := i ^^^ 3

/-- `roundup4(n) = 4 * ceil(n / 4)` (20_memory.md rule R52). -/
def roundup4 (n : Nat) : Nat := 4 * ((n + 3) / 4)

/-- The bytes in lines of eight; `fuel` bounds the number of lines (40_device_interface.md rule R105). -/
def traceLinesFuel : Nat → List Byte → List (List Byte)
  | 0, _ => []
  | _ + 1, [] => []
  | fuel + 1, b :: bs => (b :: bs).take 8 :: traceLinesFuel fuel ((b :: bs).drop 8)

/-- The trace lines of a byte list: eight bytes a line, the last line shorter, none for no bytes (40_device_interface.md rule R105). -/
def traceLines (bytes : List Byte) : List (List Byte) := traceLinesFuel bytes.length bytes

/-- `ResetOrigin()` (70_reset_and_hazards.md rule R231): the named fields at their offsets, every reserved byte 0. -/
def resetOrigin (c : Config) : List Byte :=
  let l := c.originLayout
  (((((((List.replicate c.originLen 0x00#8).set l.uCommand 0x41#8).set l.originStickX 0x80#8).set l.originStickY 0x80#8).set
    l.originSubStickX 0x80#8).set l.originSubStickY 0x80#8).set l.originTriggerL 0x1F#8).set l.originTriggerR 0x1F#8

end Sys2Proof.Machine
end

