-- ==== Sys2Proof/Decode.lean ====
section
/-! DEFINITION. The decoders of the three formats of 30_encoding.md rule R88, then the encoder, written from the same tables. Each
decoder is total; the one input without a meaning, a method selector above 3, is rejected by name. -/

namespace Sys2Proof

/-- What the command byte of a buffer command decodes to (30_encoding.md rule R72). -/
inductive BufCmd where
  | reset
  | origin
  | recalibrate
  | consoleSpecific
  | unknown (cmd : Byte)
deriving DecidableEq, Repr

/-- What a direct-command word decodes to (30_encoding.md rule R75). -/
inductive DirCmd where
  | nop (p1 p2 : Byte)
  | rumble (p1 p2 : Byte)
  | unknown (w : Word)
deriving DecidableEq, Repr

/-- The row of the opcode table a buffer command is. -/
def BufCmd.toInstr : BufCmd → Instr
  | .reset => .reset
  | .origin => .origin
  | .recalibrate => .recalibrate
  | .consoleSpecific => .consoleSpecific
  | .unknown cmd => .unknownBuf cmd

/-- The row of the opcode table a direct command is. -/
def DirCmd.toInstr : DirCmd → Instr
  | .nop p1 p2 => .dnop p1 p2
  | .rumble p1 p2 => .rumble p1 p2
  | .unknown w => .unknownDir w

/-- Decode of the command byte; the first row that matches wins (30_encoding.md rule R72). -/
def decodeBuf (c : Config) (cmd : Byte) : BufCmd :=
  if cmd = c.cmdReset then .reset
  else if cmd = c.cmdOrigin then .origin
  else if cmd = c.cmdRecalibrate then .recalibrate
  else if cmd = c.cmdConsoleSpecific then .consoleSpecific
  else .unknown cmd

/-- The 8-bit field of a direct-command word whose lowest bit is `lo`, unsigned and unscaled (30_encoding.md rules R74, R87). -/
def directField (w : Word) (lo : Nat) : Byte := w.extractLsb' lo 8

/-- Decode of a direct-command word; the first row that matches wins (30_encoding.md rules R74, R75). -/
def decodeDir (c : Config) (w : Word) : DirCmd :=
  let dcmd := directField w c.directLayout.cmdLo
  let p1 := directField w c.directLayout.p1Lo
  let p2 := directField w c.directLayout.p2Lo
  if dcmd = c.dcmdNop then .nop p1 p2
  else if dcmd = c.dcmdRumble then .rumble p1 p2
  else .unknown w

/-- The arguments of a host call, one slot each; a method reads the slots it has arguments for. The spec gives the arguments no
encoding: DESIGN CHOICE (assumption log entry 24), safe. -/
structure MethodArgs where
  port         : Nat := 0
  len          : Nat := 0
  word         : Word := 0#32
  kind         : Variant := .standardController
  traceEnabled : Bool := false
deriving DecidableEq, Repr

/-- One encoded operation, in one of the three formats of 30_encoding.md rule R88. For `method`, `receiver` is the variant of the
device that receives the call, which selects the row (40_device_interface.md rule R104). -/
inductive Packet where
  | buf8 (cmd : Byte)
  | dir32 (w : Word)
  | method (receiver : Variant) (selector : Byte) (args : MethodArgs)
deriving DecidableEq, Repr

/-- Why a packet has no meaning. -/
inductive DecodeError where
  /-- the method selector is above 3 (30_encoding.md rule R82) -/
  | unknownSelector (selector : Byte)
deriving DecidableEq, Repr

/-- The row a method selector names for a receiver (30_encoding.md rule R82). -/
def decodeMethod (receiver : Variant) (selector : Byte) (args : MethodArgs) : Except DecodeError Instr :=
  if selector = 0#8 then
    match receiver with
    | .standardController => .ok (.stdRunBuffer args.port args.len)
    | .dummy => .ok (.dummyRunBuffer args.port args.len)
  else if selector = 1#8 then
    match receiver with
    | .standardController => .ok (.stdGetData args.port)
    | .dummy => .ok (.dummyGetData args.port)
  else if selector = 2#8 then
    match receiver with
    | .standardController => .ok (.stdSendCommand args.port args.word)
    | .dummy => .ok (.dummySendCommand args.port args.word)
  else if selector = 3#8 then .ok (.construct args.kind args.port args.traceEnabled)
  else .error (.unknownSelector selector)

/-- The decoder: total on every packet, rejecting by name. -/
def decode (c : Config) : Packet → Except DecodeError Instr
  | .buf8 cmd => .ok (decodeBuf c cmd).toInstr
  | .dir32 w => .ok (decodeDir c w).toInstr
  | .method receiver selector args => decodeMethod receiver selector args

/-- A direct-command word with the given fields, every other bit 0 (30_encoding.md rule R74). -/
def directWord (l : DirectLayout) (dcmd p1 p2 : Byte) : Word :=
  (dcmd.setWidth 32 <<< l.cmdLo) ||| (p1.setWidth 32 <<< l.p1Lo) ||| (p2.setWidth 32 <<< l.p2Lo)

/-- The encoder. The trace hook has no encoding: it runs inside selector 0 (40_device_interface.md rule R105). -/
def encode (c : Config) : Instr → Option Packet
  | .reset => some (.buf8 c.cmdReset)
  | .origin => some (.buf8 c.cmdOrigin)
  | .recalibrate => some (.buf8 c.cmdRecalibrate)
  | .consoleSpecific => some (.buf8 c.cmdConsoleSpecific)
  | .unknownBuf cmd => some (.buf8 cmd)
  | .dnop p1 p2 => some (.dir32 (directWord c.directLayout c.dcmdNop p1 p2))
  | .rumble p1 p2 => some (.dir32 (directWord c.directLayout c.dcmdRumble p1 p2))
  | .unknownDir w => some (.dir32 w)
  | .stdRunBuffer port len => some (.method .standardController 0#8 { port := port, len := len })
  | .stdGetData port => some (.method .standardController 1#8 { port := port })
  | .stdSendCommand port w => some (.method .standardController 2#8 { port := port, word := w })
  | .dummyRunBuffer port len => some (.method .dummy 0#8 { port := port, len := len })
  | .dummyGetData port => some (.method .dummy 1#8 { port := port })
  | .dummySendCommand port w => some (.method .dummy 2#8 { port := port, word := w })
  | .construct variant port tr =>
    some (.method .standardController 3#8 { port := port, kind := variant, traceEnabled := tr })
  | .traceHook => none

/-- The packet a word of spec/opcode_table.json stands for. 32 bits are the format DIR32. 8 bits are a BUF8 command byte or a
METHOD selector, which the bits alone do not tell apart: the table's rows are taken in the table's order with the catch-alls last,
so 1, 2 and 3 are selectors and every other value is a command byte. DESIGN CHOICE (assumption log entry 17), safe: no step decodes
through this function. -/
def tablePacket (nbits w : Nat) : Option Packet :=
  if nbits = 32 ∧ w < 2 ^ 32 then some (.dir32 (BitVec.ofNat 32 w))
  else if nbits = 8 ∧ w < 2 ^ 8 then
    if w = 1 ∨ w = 2 ∨ w = 3 then some (.method .standardController (BitVec.ofNat 8 w) {})
    else some (.buf8 (BitVec.ofNat 8 w))
  else none

/-- The operation the decoder reads, under the default codes, from a word of spec/opcode_table.json. -/
def decodeTableWord (nbits w : Nat) : Option Instr :=
  match tablePacket nbits w with
  | none => none
  | some p => (decode Config.default p).toOption

end Sys2Proof
end

