-- ==== Sys2Proof/WellFormed.lean ====
section
/-! DEFINITION. The well-formedness checks: of a configuration (00_scope.md rule R9) and its layouts, and of an operation as
syntax. An operation's check asks for what its row of the opcode table asks; a length or a port out of range is no ill-formed
term, since the spec gives it a fault. -/

namespace Sys2Proof

/-- The well-formedness check `codesDistinct` of 00_scope.md rule R9. -/
def Config.codesDistinct (c : Config) : Bool :=
  c.cmdReset != c.cmdOrigin && c.cmdReset != c.cmdRecalibrate && c.cmdReset != c.cmdConsoleSpecific &&
  c.cmdOrigin != c.cmdRecalibrate && c.cmdOrigin != c.cmdConsoleSpecific &&
  c.cmdRecalibrate != c.cmdConsoleSpecific && c.dcmdNop != c.dcmdRumble

/-- The three fields lie inside the word and do not overlap. -/
def DirectLayout.disjoint (l : DirectLayout) : Bool :=
  decide (l.cmdLo ≤ 24) && decide (l.p1Lo ≤ 24) && decide (l.p2Lo ≤ 24) &&
  (decide (l.cmdLo + 8 ≤ l.p1Lo) || decide (l.p1Lo + 8 ≤ l.cmdLo)) &&
  (decide (l.cmdLo + 8 ≤ l.p2Lo) || decide (l.p2Lo + 8 ≤ l.cmdLo)) &&
  (decide (l.p1Lo + 8 ≤ l.p2Lo) || decide (l.p2Lo + 8 ≤ l.p1Lo))

/-- The seven offsets as a list, in the order of 10_state.md rule R24. -/
def OriginLayout.offsets (l : OriginLayout) : List Nat :=
  [l.uCommand, l.originStickX, l.originStickY, l.originSubStickX, l.originSubStickY, l.originTriggerL, l.originTriggerR]

/-- The seven named fields have seven different offsets inside the record (10_state.md rule R24). -/
def OriginLayout.places (l : OriginLayout) (originLen : Nat) : Bool :=
  decide l.offsets.Nodup && l.offsets.all (fun o => decide (o < originLen))

/-- A catch-all row holds only what no row before it matches (30_encoding.md rule R88). -/
def Instr.wf (c : Config) : Instr → Bool
  | .reset => true
  | .origin => true
  | .recalibrate => true
  | .consoleSpecific => true
  | .unknownBuf cmd =>
    cmd != c.cmdReset && cmd != c.cmdOrigin && cmd != c.cmdRecalibrate && cmd != c.cmdConsoleSpecific
  | .dnop _ _ => true
  | .rumble _ _ => true
  | .unknownDir w =>
    directField w c.directLayout.cmdLo != c.dcmdNop && directField w c.directLayout.cmdLo != c.dcmdRumble
  | .stdRunBuffer _ _ => true
  | .stdGetData _ => true
  | .stdSendCommand _ _ => true
  | .dummyRunBuffer _ _ => true
  | .dummyGetData _ => true
  | .dummySendCommand _ _ => true
  | .construct _ _ _ => true
  | .traceHook => true

end Sys2Proof
end

