-- ==== Sys2Proof/Machine/Ops.lean ====
section
/-! DEFINITION. The named operations over the buffer, the devices and the call in progress, the error kinds, and raising a fault as one shared
operation. Every meaning is written over these. -/

namespace Sys2Proof.Machine

/-! ## The buffer's bytes by physical index -/

/-- `buf[p]` (20_memory.md rule R52). -/
def Memory.read : Memory → Nat → Byte
  | [], _ => Config.unlistedByte
  | (a, v) :: rest, p => if a = p then v else Memory.read rest p

/-- `buf[p] <- v` (20_memory.md rule R52), keeping the canonical form: the entry of `p` is replaced, removed where `v` is what an
unlisted index reads as, or inserted in its place. -/
def Memory.write : Memory → Nat → Byte → Memory
  | [], p, v => if v = Config.unlistedByte then [] else [(p, v)]
  | (a, u) :: rest, p, v =>
    if a < p then (a, u) :: Memory.write rest p v
    else if a = p then (if v = Config.unlistedByte then rest else (p, v) :: rest)
    else if v = Config.unlistedByte then (a, u) :: rest
    else (p, v) :: (a, u) :: rest

/-- The canonical form from an index on: rising, no entry an unlisted index reads as. -/
def Memory.wfFrom : Nat → Memory → Bool
  | _, [] => true
  | lo, (a, v) :: rest => decide (lo ≤ a) && v != Config.unlistedByte && Memory.wfFrom (a + 1) rest

/-- The canonical form of the buffer. -/
def Memory.wf (m : Memory) : Bool := Memory.wfFrom 0 m

/-! ## Checked, swizzled access (20_memory.md rules R52, R54, R56, R59) -/

/-- The bound `BOUNDS_POLICY` selects for a call of length `len` (20_memory.md rules R52, R59). -/
def bound (c : Config) (len : Nat) : Nat :=
  match c.boundsPolicy with
  | .capacity => c.bufCap
  | .length => roundup4 len

/-- `BufRead(i)` (20_memory.md rule R54). -/
def bufRead (c : Config) (len : Nat) (m : Memory) (i : Nat) : Except FaultReason Byte :=
  if bound c len ≤ swz i then .error (.bufferOutOfBounds (swz i)) else .ok (Memory.read m (swz i))

/-- `BufWrite(i, v)` (20_memory.md rule R54). -/
def bufWrite (c : Config) (len : Nat) (m : Memory) (i : Nat) (v : Byte) : Except FaultReason Memory :=
  if bound c len ≤ swz i then .error (.bufferOutOfBounds (swz i)) else .ok (Memory.write m (swz i) v)

/-- `BufWrite` of each byte in order, from logical index `i` on (41_std_buffer_commands.md rule R123, ascending order). -/
def bufWriteFrom (c : Config) (len : Nat) : Memory → Nat → List Byte → Except FaultReason Memory
  | m, _, [] => .ok m
  | m, i, v :: vs =>
    match bufWrite c len m i v with
    | .error r => .error r
    | .ok m' => bufWriteFrom c len m' (i + 1) vs

/-- `BufRead` of `n` bytes in order, from logical index `i` on (40_device_interface.md rule R105). -/
def bufReadFrom (c : Config) (len : Nat) (m : Memory) : Nat → Nat → Except FaultReason (List Byte)
  | _, 0 => .ok []
  | i, n + 1 =>
    match bufRead c len m i with
    | .error r => .error r
    | .ok b =>
      match bufReadFrom c len m (i + 1) n with
      | .error r => .error r
      | .ok bs => .ok (b :: bs)

/-- `WordWriteBE(W)` (20_memory.md rule R56). -/
def wordWriteBE (c : Config) (len : Nat) (m : Memory) (w : Word) : Except FaultReason Memory :=
  bufWriteFrom c len m 0 (wordBytes w)

/-! ## Configuration and device instances -/

/-- The first check the configuration fails, none where it passes all (60_exceptions.md rule R207). The order of the checks is the
order of that rule: DESIGN CHOICE (assumption log entry 19), safe. -/
def configCheck (c : Config) : Option ConfigCheck :=
  if c.codesDistinct = false then some .codesDistinct
  else if c.originLen < 8 then some .originLen
  else if c.bufCap % 4 ≠ 0 ∨ c.bufCap < 4 then some .bufCap
  else none

/-- The instance `Construct` makes (70_reset_and_hazards.md rule R230). -/
def newDevice (c : Config) (variant : Variant) (port : Nat) (traceEnabled : Bool) : Device :=
  { variant := variant
    port := port
    origin := match variant with
      | .standardController => resetOrigin c
      | .dummy => []
    traceEnabled := traceEnabled
    faulted := none }

/-- The instance on a port. -/
def findDevice (port : Nat) (devices : List Device) : Option Device :=
  devices.find? (fun d => d.port == port)

/-- The instances with one put on its port, in the place of an instance that was there, rising by port. -/
def insertDevice (d : Device) : List Device → List Device
  | [] => [d]
  | e :: rest =>
    if e.port < d.port then e :: insertDevice d rest
    else if e.port = d.port then d :: rest
    else d :: e :: rest

/-- The instance, with its fault mark set if it is on the port (10_state.md rule R38). -/
def Device.mark (port : Nat) (r : FaultReason) (d : Device) : Device :=
  if d.port = port then { d with faulted := some r } else d

/-- The instances with the fault mark of one port's set. -/
def markFaulted (port : Nat) (r : FaultReason) (devices : List Device) : List Device := devices.map (Device.mark port r)

/-! ## Error kinds -/

/-- The number of an error kind (60_exceptions.md rule R201, Code, and rule R202, Model number; decision D30). -/
def ErrorKind.number : ErrorKind → Nat
  | .unrecognizedBufferCommand => 1
  | .unrecognizedDirectCommand => 2

/-- The error kind an event reports; none where the event is not error-class (60_exceptions.md rule R200). -/
def Event.errorKind : Event → Option ErrorKind
  | .trace _ _ => none
  | .consoleSpecificIgnored _ _ => none
  | .unrecognizedBufferCommand _ _ => some .unrecognizedBufferCommand
  | .unrecognizedDirectCommand _ _ => some .unrecognizedDirectCommand
  | .inputSampled _ _ => none
  | .micButton _ _ => none
  | .rumble _ _ _ => none
  | .rumbleProbe _ _ => none

/-- The number of the error kind an event reports (60_exceptions.md rules R201, R202). -/
def Event.errorNumber (e : Event) : Option Nat := e.errorKind.map ErrorKind.number

/-! ## Updates of the state -/

/-- The call with its cursor at `pos`, for a `RunBuffer` call of length `len` (10_state.md rule R30). -/
def OpenCall.at (c : OpenCall) (len pos : Nat) : OpenCall := { c with frame := .runBuffer len pos }

/-- `emit` of each event in order (00_scope.md rule R12). -/
def OpenCall.emit (c : OpenCall) (es : List Event) : OpenCall := { c with events := c.events ++ es }

/-- What the call gives back when it ends: for `RunBuffer` the final cursor (10_state.md rule R30). -/
def OpenCall.result (c : OpenCall) : CallResult :=
  match c.frame with
  | .runBuffer _ pos => .consumed pos
  | .getData => .polled
  | .sendCommand => .sent

/-- A call begins: no event yet. -/
def State.openCall (s : State) (port : Nat) (f : Frame) : State :=
  { s with call := some { port := port, frame := f, events := [] } }

/-- The call in progress is now `c`. -/
def State.setCall (s : State) (c : OpenCall) : State := { s with call := some c }

/-- The buffer is now `m`. -/
def State.setBuf (s : State) (m : Memory) : State := { s with buf := m }

/-- `GetData` gives the host `p`. -/
def State.setPolling (s : State) (p : Polling) : State := { s with polling := some p }

/-- The call `c` returns: its events join the history (60_exceptions.md rule R200) and the host gets its result. -/
def State.closeCall (s : State) (c : OpenCall) : State :=
  { s with call := none, events := s.events ++ c.events, result := some c.result }

/-- RAISING A FAULT (60_exceptions.md rule R207, 10_state.md rule R38): the call ends with no effect on the buffer or the host, its
events are dropped, and the device of `target` is marked. `Construct` has no device to mark, so its target is none (60_exceptions.md
rule R208; assumption log entries 1 and 26). -/
def State.raiseFault (s : State) (target : Option Nat) (r : FaultReason) : State :=
  { s with
    devices := match target with
      | none => s.devices
      | some port => markFaulted port r s.devices
    call := none
    result := some (.faulted r) }

/-- The port holds `d`; an instance it replaces is kept among the retired (70_reset_and_hazards.md rule R236; assumption log
entry 11). -/
def State.putDevice (s : State) (d : Device) : State :=
  { s with
    devices := insertDevice d s.devices
    retired := match findDevice d.port s.devices with
      | none => s.retired
      | some old => s.retired ++ [old]
    result := some (.constructed d.port) }

/-- The host's next action is taken. -/
def State.setHost (s : State) (rest : List HostAct) : State := { s with host := rest }

/-! ## The oracles (60_exceptions.md rules R214, R216) -/

/-- `Input(port)`: the next answer of the input-backend; a free value where none is decided (assumption log entry 9). -/
def State.nextSample (s : State) (port : Nat) : InputSample :=
  match s.samples with
  | x :: _ => x
  | [] => Config.freeSample port s.draws

/-- The draw `nextSample` answers is taken. -/
def State.drawSample (s : State) : State :=
  match s.samples with
  | _ :: rest => { s with samples := rest }
  | [] => { s with draws := s.draws + 1 }

/-- `RumbleAvailable(port)`: the next answer of the actuator probe; a free value where none is decided (assumption log entry 10). -/
def State.nextAvail (s : State) (port : Nat) : Bool :=
  match s.avails with
  | x :: _ => x
  | [] => Config.freeAvail port s.draws

/-- The draw `nextAvail` answers is taken. -/
def State.drawAvail (s : State) : State :=
  match s.avails with
  | _ :: rest => { s with avails := rest }
  | [] => { s with draws := s.draws + 1 }

/-! ## Which device runs an operation -/

/-- The instance on a port, if it can take a step: a faulted device has none (10_state.md rule R38). -/
def State.liveDevice (s : State) (port : Nat) : Except Fault Device :=
  match findDevice port s.devices with
  | none => .error (.noDevice port)
  | some d =>
    match d.faulted with
    | some r => .error (.deviceFaulted port r)
    | none => .ok d

/-- The instance on a port, if it can take a step of an operation of `variant`. -/
def State.deviceOf (s : State) (variant : Variant) (port : Nat) : Except Fault Device :=
  match s.liveDevice port with
  | .error f => .error f
  | .ok d => if d.variant = variant then .ok d else .error (.wrongVariant port)

/-- The instance that receives a call of the host: no other call may be in progress (70_reset_and_hazards.md rule R238). -/
def State.receiver (s : State) (variant : Variant) (port : Nat) : Except Fault Device :=
  match s.call with
  | some _ => .error .overlappingCall
  | none => s.deviceOf variant port

/-- The `RunBuffer` call in progress with its length and cursor. -/
def State.bufferCall (s : State) : Except Fault (OpenCall × Nat × Nat) :=
  match s.call with
  | none => .error .noOpenCall
  | some c =>
    match c.frame with
    | .runBuffer len pos => .ok (c, len, pos)
    | .getData => .error .noOpenCall
    | .sendCommand => .error .noOpenCall

/-- The `SendCommand` call in progress. -/
def State.directCall (s : State) : Except Fault OpenCall :=
  match s.call with
  | none => .error .noOpenCall
  | some c =>
    match c.frame with
    | .runBuffer _ _ => .error .noOpenCall
    | .getData => .error .noOpenCall
    | .sendCommand => .ok c

/-- Runs a buffer command: inside a `RunBuffer` call, on a standard controller that can take a step. -/
def State.onBufferCommand (s : State) (k : Device → OpenCall → Nat → Answer) : Answer :=
  match s.bufferCall with
  | .error f => .fault f
  | .ok (c, len, _) =>
    match s.deviceOf .standardController c.port with
    | .error f => .fault f
    | .ok d => k d c len

/-- Runs a direct command: inside a `SendCommand` call, on a standard controller that can take a step. -/
def State.onDirectCommand (s : State) (k : OpenCall → Answer) : Answer :=
  match s.directCall with
  | .error f => .fault f
  | .ok c =>
    match s.deviceOf .standardController c.port with
    | .error f => .fault f
    | .ok _ => k c

/-- The end of a buffer command: the reply stands in the buffer and the cursor is at `len` (10_state.md rule R30), or the fault of
an access is raised. -/
def State.reply (s : State) (c : OpenCall) (len : Nat) (written : Except FaultReason Memory) : Answer :=
  match written with
  | .error r => .next (s.raiseFault (some c.port) r)
  | .ok m => .next ((s.setBuf m).setCall (c.at len len))

/-- Goes on with `k` while the call is still in progress; a fault raised has ended it. -/
def whileOpen (a : Answer) (k : State → OpenCall → Answer) : Answer :=
  match a with
  | .fault f => .fault f
  | .refused r => .refused r
  | .next t =>
    match t.call with
    | none => .next t
    | some c => k t c

end Sys2Proof.Machine
end

