-- ==== Sys2Proof/Machine/Construct.lean ====
section
/-! DEFINITION. Construction of a device instance, the reset of this block (70_reset_and_hazards.md rule R230). -/

namespace Sys2Proof.Machine

/-- `CONSTRUCT` (70_reset_and_hazards.md rule R230): refused under a bad configuration or for a port out of range; else the port holds a
new instance. It emits no event. -/
def execConstruct (variant : Variant) (port : Nat) (traceEnabled : Bool) (s : State) : Answer :=
  match s.call with
  | some _ => .fault .overlappingCall
  | none =>
    match configCheck s.cfg with
    | some check => .next (s.raiseFault none (.configRefused check))
    | none =>
      if s.cfg.numPorts ≤ port then .next (s.raiseFault none (.portOutOfRange port))
      else .next (s.putDevice (newDevice s.cfg variant port traceEnabled))

end Sys2Proof.Machine
end

