-- ==== Sys2Proof/Machine/Trace.lean ====
section
/-! DEFINITION. The debug-trace hook both variants run on entry to `RunBuffer`, and that entry (40_device_interface.md rules R100,
R105). -/

namespace Sys2Proof.Machine

/-- `TRACE_HOOK` (40_device_interface.md rules R105, R107): with tracing on, the logical bytes `0 .. len-1`, eight a line; with
tracing off, nothing. -/
def execTraceHook (s : State) : Answer :=
  match s.bufferCall with
  | .error f => .fault f
  | .ok (c, len, _) =>
    match s.liveDevice c.port with
    | .error f => .fault f
    | .ok d =>
      if d.traceEnabled then
        match bufReadFrom s.cfg len s.buf 0 len with
        | .error r => .next (s.raiseFault (some c.port) r)
        | .ok bytes => .next (s.setCall (c.emit ((traceLines bytes).map (Event.trace c.port))))
      else .next s

/-- The common first steps of `RunBuffer` (40_device_interface.md rule R100): the length check (20_memory.md rule R60), then the trace
hook, then the variant's own processing `body`. -/
def enterRunBuffer (port len : Nat) (s : State) (body : State → OpenCall → Answer) : Answer :=
  if s.cfg.bufCap < len then .next (s.raiseFault (some port) (.lengthOutOfRange len))
  else whileOpen (execTraceHook (s.openCall port (.runBuffer len 0))) body

end Sys2Proof.Machine
end

