-- ==== Sys2Proof/Machine/DummyDevice.lean ====
section
/-! DEFINITION. The dummy device's three operations (44_dummy_device.md rules R190 to R192). -/

namespace Sys2Proof.Machine

/-- The dummy's own processing (44_dummy_device.md rule R190): the zero word, and always 4 bytes consumed. -/
def dummyReply (port len : Nat) (t : State) (c : OpenCall) : Answer :=
  match wordWriteBE t.cfg len t.buf 0x00000000#32 with
  | .error r => .next (t.raiseFault (some port) r)
  | .ok m => .next ((t.setBuf m).closeCall (c.at len 4))

/-- `DUMMY_RUNBUFFER` (44_dummy_device.md rule R190). -/
def execDummyRunBuffer (port len : Nat) (s : State) : Answer :=
  match s.receiver .dummy port with
  | .error f => .fault f
  | .ok _ => enterRunBuffer port len s (dummyReply port len)

/-- `DUMMY_GETDATA` (44_dummy_device.md rule R191): no new data, no words, no draw. -/
def execDummyGetData (port : Nat) (s : State) : Answer :=
  match s.receiver .dummy port with
  | .error f => .fault f
  | .ok _ =>
    .next ((s.setPolling { hasNewData := hasNewData .dummy, hi := none, low := none }).closeCall
      { port := port, frame := .getData, events := [] })

/-- `DUMMY_SENDCOMMAND` (44_dummy_device.md rule R192): every word accepted, nothing done. -/
def execDummySendCommand (port : Nat) (_w : Word) (s : State) : Answer :=
  match s.receiver .dummy port with
  | .error f => .fault f
  | .ok _ => .next (s.closeCall { port := port, frame := .sendCommand, events := [] })

end Sys2Proof.Machine
end

