-- ==== Sys2Proof/Machine/BufferCommands.lean ====
section
/-! DEFINITION. The standard controller's buffer commands (41_std_buffer_commands.md rules R122 to R126), each run inside a
`RunBuffer` call and ending with the cursor at `len` (rule R120). -/

namespace Sys2Proof.Machine

/-- `RESET` (41_std_buffer_commands.md rule R122). -/
def execReset (s : State) : Answer :=
  s.onBufferCommand fun _ c len => s.reply c len (wordWriteBE s.cfg len s.buf s.cfg.idWord)

/-- The copy of the record both `ORIGIN` and `RECALIBRATE` make (41_std_buffer_commands.md rules R123, R124). -/
def copyOrigin (s : State) (d : Device) (len : Nat) : Except FaultReason Memory :=
  bufWriteFrom s.cfg len s.buf 0 d.origin

/-- `ORIGIN` (41_std_buffer_commands.md rule R123). -/
def execOrigin (s : State) : Answer :=
  s.onBufferCommand fun d c len => s.reply c len (copyOrigin s d len)

/-- `RECALIBRATE` (41_std_buffer_commands.md rule R124): the same copy; the record is neither resampled nor written. -/
def execRecalibrate (s : State) : Answer :=
  s.onBufferCommand fun d c len => s.reply c len (copyOrigin s d len)

/-- `CONSOLE_SPECIFIC` (41_std_buffer_commands.md rule R125): a trace-class event when tracing, nothing else. -/
def execConsoleSpecific (s : State) : Answer :=
  s.onBufferCommand fun d c len =>
    .next (s.setCall ((c.emit (if d.traceEnabled
      then [.consoleSpecificIgnored c.port s.cfg.cmdConsoleSpecific] else [])).at len len))

/-- `UNKNOWN_BUF` (41_std_buffer_commands.md rule R126): one error event, whether or not tracing is on. -/
def execUnknownBuf (cmd : Byte) (s : State) : Answer :=
  s.onBufferCommand fun _ c len => .next (s.setCall ((c.emit [.unrecognizedBufferCommand c.port cmd]).at len len))

end Sys2Proof.Machine
end

