-- ==== Sys2Proof/Machine/DirectCommands.lean ====
section
/-! DEFINITION. The standard controller's direct commands (43_std_direct_commands.md rules R171 to R173), each run inside a
`SendCommand` call. -/

namespace Sys2Proof.Machine

/-- `DNOP` (43_std_direct_commands.md rule R171): accepted silently, whatever the parameters. -/
def execDnop (_p1 _p2 : Byte) (s : State) : Answer :=
  s.onDirectCommand fun _ => .next s

/-- `RUMBLE` (43_std_direct_commands.md rule R172): one availability draw, its record, and the parameters forwarded unchanged
(rule R175) when the actuator is there. -/
def execRumble (p1 p2 : Byte) (s : State) : Answer :=
  s.onDirectCommand fun c =>
    .next (s.drawAvail.setCall (c.emit (.rumbleProbe c.port (s.nextAvail c.port) ::
      (if s.nextAvail c.port then [.rumble c.port p1 p2] else []))))

/-- `UNKNOWN_DIR` (43_std_direct_commands.md rule R173): one error event with the whole word. -/
def execUnknownDir (w : Word) (s : State) : Answer :=
  s.onDirectCommand fun c => .next (s.setCall (c.emit [.unrecognizedDirectCommand c.port w]))

end Sys2Proof.Machine
end

