-- ==== Sys2Proof/Machine/StandardController.lean ====
section
/-! DEFINITION. The standard controller's three operations (41_std_buffer_commands.md rule R120, 42_std_polling.md rule R150,
43_std_direct_commands.md rule R170). -/

namespace Sys2Proof.Machine

/-- The dispatch of `RunBuffer` (41_std_buffer_commands.md rule R120, step 2). -/
def runBufCmd : BufCmd → State → Answer
  | .reset, s => execReset s
  | .origin, s => execOrigin s
  | .recalibrate, s => execRecalibrate s
  | .consoleSpecific, s => execConsoleSpecific s
  | .unknown cmd, s => execUnknownBuf cmd s

/-- The dispatch of `SendCommand` (43_std_direct_commands.md rule R170). -/
def runDirCmd : DirCmd → State → Answer
  | .nop p1 p2, s => execDnop p1 p2 s
  | .rumble p1 p2, s => execRumble p1 p2 s
  | .unknown w, s => execUnknownDir w s

/-- A call returns. -/
def returnCall (t : State) (c : OpenCall) : Answer := .next (t.closeCall c)

/-- The interpreter after the trace hook (41_std_buffer_commands.md rules R120, R121): nothing for an empty buffer; else one command
byte read at the cursor, the cursor advanced, and that one command run. -/
def interpretBuffer (port len : Nat) (t : State) (c : OpenCall) : Answer :=
  if len = 0 then returnCall t (c.at len 0)
  else
    match bufRead t.cfg len t.buf 0 with
    | .error r => .next (t.raiseFault (some port) r)
    | .ok cmd => whileOpen (runBufCmd (decodeBuf t.cfg cmd) (t.setCall (c.at len 1))) returnCall

/-- `STD_RUNBUFFER` (41_std_buffer_commands.md rule R120). -/
def execStdRunBuffer (port len : Nat) (s : State) : Answer :=
  match s.receiver .standardController port with
  | .error f => .fault f
  | .ok _ => enterRunBuffer port len s (interpretBuffer port len)

/-- `STD_GETDATA` (42_std_polling.md rule R150): one draw, its record, the two words, the microphone side channel (rule R154). -/
def execStdGetData (port : Nat) (s : State) : Answer :=
  match s.receiver .standardController port with
  | .error f => .fault f
  | .ok _ =>
    let x := s.nextSample port
    returnCall
      (s.drawSample.setPolling
        { hasNewData := hasNewData .standardController, hi := some (packHi x), low := some (packLow x) })
      { port := port, frame := .getData, events := [.inputSampled port x, .micButton port x.micButton] }

/-- `STD_SENDCOMMAND` (43_std_direct_commands.md rule R170). -/
def execStdSendCommand (port : Nat) (w : Word) (s : State) : Answer :=
  match s.receiver .standardController port with
  | .error f => .fault f
  | .ok _ => whileOpen (runDirCmd (decodeDir s.cfg w) (s.openCall port .sendCommand)) returnCall

end Sys2Proof.Machine
end

