-- ==== Sys2Proof/Machine/Dispatch.lean ====
section
/-! DEFINITION. The meaning of each operation, one arm per row of spec/opcode_table.json. -/

namespace Sys2Proof.Machine

def exec (i : Instr) (s : State) : Host.Outcome State Fault Refusal :=
  match i with
  | .reset => Sys2Proof.Machine.execReset s
  | .origin => Sys2Proof.Machine.execOrigin s
  | .recalibrate => Sys2Proof.Machine.execRecalibrate s
  | .consoleSpecific => Sys2Proof.Machine.execConsoleSpecific s
  | .unknownBuf cmd => Sys2Proof.Machine.execUnknownBuf cmd s
  | .dnop p1 p2 => Sys2Proof.Machine.execDnop p1 p2 s
  | .rumble p1 p2 => Sys2Proof.Machine.execRumble p1 p2 s
  | .unknownDir w => Sys2Proof.Machine.execUnknownDir w s
  | .stdRunBuffer port len => Sys2Proof.Machine.execStdRunBuffer port len s
  | .stdGetData port => Sys2Proof.Machine.execStdGetData port s
  | .stdSendCommand port w => Sys2Proof.Machine.execStdSendCommand port w s
  | .dummyRunBuffer port len => Sys2Proof.Machine.execDummyRunBuffer port len s
  | .dummyGetData port => Sys2Proof.Machine.execDummyGetData port s
  | .dummySendCommand port w => Sys2Proof.Machine.execDummySendCommand port w s
  | .construct variant port traceEnabled => Sys2Proof.Machine.execConstruct variant port traceEnabled s
  | .traceHook => Sys2Proof.Machine.execTraceHook s

end Sys2Proof.Machine
end

