-- ==== Sys2Proof/Machine/Fetch.lean ====
section
/-! DEFINITION. What a step does with the host's next action: the call's encoding and the operation it decodes to, the host's own
actions on its buffer and on the polling words, and how the host's words of the opcode table are placed for the next step. -/

namespace Sys2Proof.Machine

/-- The packet a call on a port is, for the variant of the device there (30_encoding.md rule R82, 40_device_interface.md rule R104). -/
def callPacket (s : State) (port : Nat) (selector : Byte) (args : MethodArgs) : Except Fault Packet :=
  match findDevice port s.devices with
  | none => .error (.noDevice port)
  | some d => .ok (.method d.variant selector args)

/-- One action of the host, as a step takes it. -/
inductive Fetched where
  /-- an operation of the block to run -/
  | instr (i : Instr)
  /-- the host's own write of one byte of its buffer -/
  | hostWrite (p : Nat) (v : Byte)
  /-- the host's read of the polling words -/
  | hostRead
  /-- the call has no device to run on -/
  | stuck (f : Fault)
deriving DecidableEq, Repr

/-- The operation a packet decodes to. No call of the host has a selector above 3, so `noOpenCall` stands for a case no action
reaches. -/
def decodePacket (c : Config) : Except Fault Packet → Fetched
  | .error f => .stuck f
  | .ok p =>
    match decode c p with
    | .ok i => .instr i
    | .error _ => .stuck .noOpenCall

/-- The fetch: the host's action, its call encoded by its method selector and decoded for the receiving variant. -/
def fetch (s : State) : HostAct → Fetched
  | .construct variant port tr =>
    decodePacket s.cfg (.ok (.method variant 3#8 { port := port, kind := variant, traceEnabled := tr }))
  | .runBuffer port len => decodePacket s.cfg (callPacket s port 0#8 { port := port, len := len })
  | .getData port => decodePacket s.cfg (callPacket s port 1#8 { port := port })
  | .sendCommand port w => decodePacket s.cfg (callPacket s port 2#8 { port := port, word := w })
  | .writeBuf p v => .hostWrite p v
  | .readPolling => .hostRead

/-- The host writes one byte of its own buffer between calls (10_state.md rule R37, 60_exceptions.md rule R218; assumption log entries
8 and 16). -/
def hostWrite (p : Nat) (v : Byte) (s : State) : Answer :=
  match s.call with
  | some _ => .fault .overlappingCall
  | none =>
    if p < s.cfg.bufCap then .next (s.setBuf (Memory.write s.buf p v)) else .fault (.hostWriteOutsideBuffer p)

/-- The words the host reads after `GetData`: a fault where they carry no value (70_reset_and_hazards.md rule R239). -/
def pollingWords (s : State) : Except Fault (Word × Word) :=
  match s.polling with
  | none => .error .noPollingWord
  | some p =>
    match p.hi, p.low with
    | some hi, some low => .ok (hi, low)
    | _, _ => .error .noPollingWord

/-- The host reads the polling words; the read itself changes nothing (assumption log entry 15). -/
def hostRead (s : State) : Answer :=
  match pollingWords s with
  | .error f => .fault f
  | .ok _ => .next s

/-- A standard controller that can take a step stands on port 0: the one there, or a new one. -/
def withStandardDevice (s : State) : State :=
  match findDevice 0 s.devices with
  | some d =>
    if d.variant = .standardController ∧ d.faulted = none then s
    else { s with devices := insertDevice (newDevice s.cfg .standardController 0 false) s.devices }
  | none => { s with devices := insertDevice (newDevice s.cfg .standardController 0 false) s.devices }

/-- The host's next action is `a`, and no call is in progress. -/
def withNextAct (s : State) (a : HostAct) : State := { s with host := a :: s.host, call := none }

/-- The packet is what the very next step runs: a command byte stands in the buffer at logical index 0 and the host calls `RunBuffer`
of length 1 on port 0; a direct word is sent to port 0; a method is called with its arguments (assumption log entry 3). -/
def placePacket (s : State) : Packet → State
  | .buf8 cmd => withNextAct ((withStandardDevice s).setBuf (Memory.write s.buf (swz 0) cmd)) (.runBuffer 0 1)
  | .dir32 w => withNextAct (withStandardDevice s) (.sendCommand 0 w)
  | .method _ selector args =>
    if selector = 0#8 then withNextAct (withStandardDevice s) (.runBuffer 0 args.len)
    else if selector = 1#8 then withNextAct (withStandardDevice s) (.getData 0)
    else if selector = 2#8 then withNextAct (withStandardDevice s) (.sendCommand 0 args.word)
    else withNextAct s (.construct args.kind args.port args.traceEnabled)

/-- The state whose next step runs the operation of a word of spec/opcode_table.json. -/
def placeTableWord (s : State) (nbits w : Nat) : State :=
  match tablePacket nbits w with
  | none => s
  | some p => placePacket s p

end Sys2Proof.Machine
end

