-- ==== Sys2Proof/Machine/Step.lean ====
section
/-! DEFINITION. One step of the machine: the host's next action, whole (60_exceptions.md rule R211). -/

namespace Sys2Proof.Machine

/-- One step. With no action of the host left, nothing happens: "A device does nothing until the host calls it" (10_state.md section 7,
70_reset_and_hazards.md rule R234). -/
def step (s : State) : Host.Outcome State Fault Refusal :=
  match s.host with
  | [] => .next s
  | a :: rest =>
    match fetch s a with
    | .instr i => exec i (s.setHost rest)
    | .hostWrite p v => hostWrite p v (s.setHost rest)
    | .hostRead => hostRead (s.setHost rest)
    | .stuck f => .fault f

/-- `s` with the operation of a word of spec/opcode_table.json as the very next step (assumption log entries 3 and 17). -/
def State.withFetchWord (s : State) (nbits w : Nat) : State := placeTableWord s nbits w

end Sys2Proof.Machine
end

