-- ==== Sys2Proof/Safety.lean ====
section
/-! DEFINITION. What counts as a good run, the invariant every step keeps, and the conditions on a state in which statements about
one operation are made. -/

namespace Sys2Proof.Machine

/-! ## Good states and the invariant -/

/-- No device has its fault mark set, the replaced ones among them (70_reset_and_hazards.md rule R243, 60_exceptions.md rule R208). -/
def State.good (s : State) : Prop := ∀ d ∈ s.devices ++ s.retired, d.faulted = none

/-- The ports of the instances rise from `lo` on. -/
def portsRise : Nat → List Device → Prop
  | _, [] => True
  | lo, d :: rest => lo ≤ d.port ∧ portsRise (d.port + 1) rest

/-- What `Construct` sets stays as it set it: the port is in range and the origin record is the reset record, or absent for a dummy
(10_state.md rules R22, R26, R27). -/
def Device.asConstructed (c : Config) (d : Device) : Prop :=
  d.port < c.numPorts ∧
    d.origin = match d.variant with
      | .standardController => resetOrigin c
      | .dummy => []

/-- The host was told of new data exactly when it got both words, and bit 23 of `Hi` is set (10_state.md rules R33, R34). -/
def Polling.legal (p : Polling) : Prop :=
  (p.hasNewData = true ∧ (∃ hi, p.hi = some hi ∧ hi.getLsbD 23 = true) ∧ ∃ low, p.low = some low) ∨
    (p.hasNewData = false ∧ p.hi = none ∧ p.low = none)

/-- The invariant: the buffer is in its canonical form and lies inside the capacity, each port has at most one instance, every
instance is as constructed and was constructed under a configuration that passes every check, no call is in progress between
steps, and the host's polling words are legal. -/
structure State.Inv (s : State) : Prop where
  bufWf : s.buf.wf = true
  bufInside : ∀ cell ∈ s.buf, cell.1 < s.cfg.bufCap
  ports : portsRise 0 s.devices
  constructed : ∀ d ∈ s.devices ++ s.retired, d.asConstructed s.cfg
  checked : s.devices ++ s.retired ≠ [] → configCheck s.cfg = none
  noCall : s.call = none
  pollingLegal : ∀ p, s.polling = some p → p.legal

/-! ## Conditions for one operation -/

/-- No call is in progress, and the port holds `d`, of the given variant, with no fault mark. -/
abbrev State.idleOn (s : State) (variant : Variant) (port : Nat) (d : Device) : Prop :=
  s.call = none ∧ findDevice port s.devices = some d ∧ d.variant = variant ∧ d.faulted = none

/-- A `RunBuffer` call `c` of length `len` with the cursor at `pos` is in progress on the device `d`, which has no fault mark. -/
abbrev State.inBufferCall (s : State) (c : OpenCall) (len pos : Nat) (d : Device) : Prop :=
  s.call = some c ∧ c.frame = .runBuffer len pos ∧ findDevice c.port s.devices = some d ∧ d.faulted = none

/-- A `SendCommand` call `c` is in progress on the standard controller `d`, which has no fault mark. -/
abbrev State.inDirectCall (s : State) (c : OpenCall) (d : Device) : Prop :=
  s.call = some c ∧ c.frame = .sendCommand ∧ findDevice c.port s.devices = some d ∧
    d.variant = .standardController ∧ d.faulted = none

/-! ## Events and views -/

/-- The trace-class events (60_exceptions.md rule R200). -/
def Event.isTraceClass : Event → Bool
  | .trace _ _ => true
  | .consoleSpecificIgnored _ _ => true
  | .unrecognizedBufferCommand _ _ => false
  | .unrecognizedDirectCommand _ _ => false
  | .inputSampled _ _ => false
  | .micButton _ _ => false
  | .rumble _ _ _ => false
  | .rumbleProbe _ _ => false

/-- The error-class events: those that report an error kind (60_exceptions.md rule R200). -/
def Event.isErrorClass (e : Event) : Bool := e.errorKind.isSome

/-- The logical bytes `B[0 .. n-1]` of a buffer (30_encoding.md rule R70). -/
def logicalBytes (m : Memory) (n : Nat) : List Byte := (List.range n).map (fun i => Memory.read m (swz i))

/-- What the trace hook emits on entry to a call of length `len` (40_device_interface.md rules R105, R107). -/
def hookEvents (d : Device) (m : Memory) (len : Nat) : List Event :=
  if d.traceEnabled then (traceLines (logicalBytes m len)).map (Event.trace d.port) else []

/-- The device with its trace flag set to `b`. -/
def Device.withTrace (b : Bool) (d : Device) : Device := { d with traceEnabled := b }

/-- The state as a host sees it that ignores diagnostics: every device's trace flag off, no trace-class event in the history (40_device_interface.md
rule R108). -/
def State.withoutTrace (s : State) : State :=
  { s with
    devices := s.devices.map (Device.withTrace false)
    events := s.events.filter (fun e => !e.isTraceClass) }

end Sys2Proof.Machine
end

