-- ==== Sys2Proof/Certificates/Slice0/Obligations.lean ====
section
/-! DEFINITION. The statements about the machine, each with the rule of spec/ it formalises. A statement about an operation says the
whole next state: the fields it names and, through `{ s with … }`, every other field unchanged. -/

open Sys2Proof Sys2Proof.Machine

/-! ## Encoding -/

/-- Decode and encode agree: every well-formed operation but the trace hook has an encoding, and it decodes to the operation, under
every configuration with distinct codes and disjoint direct-word fields. The trace hook has none (40_device_interface.md rule R105:
it runs inside selector 0). -/
def Obligations.DecodeEncodeRoundTrip : Prop :=
  ∀ (c : Config) (i : Instr), c.codesDistinct = true → c.directLayout.disjoint = true → i.wf c = true →
    (i = .traceHook ∧ encode c i = none) ∨ ∃ p, encode c i = some p ∧ decode c p = .ok i

/-- Eleven fixed words decode to the operations they stand for (95_test_vectors.md sections 2 and 4). They rest on the default codes and
on the default bit split, which the spec marks as its own decisions D1, D5 and D6 (assumption log entry 5), on its own numbering of the
selectors (decision D21), and on the model's argument slots of a method packet (assumption log entry 24). -/
def Obligations.SpecWordsDecode : Prop :=
  decode .default (.buf8 0x00#8) = .ok .reset ∧ decode .default (.buf8 0x41#8) = .ok .origin ∧
  decode .default (.buf8 0x42#8) = .ok .recalibrate ∧ decode .default (.buf8 0xCE#8) = .ok .consoleSpecific ∧
  decode .default (.buf8 0x55#8) = .ok (.unknownBuf 0x55#8) ∧
  decode .default (.dir32 0x40000000#32) = .ok (.dnop 0x00#8 0x00#8) ∧
  decode .default (.dir32 0x00400201#32) = .ok (.rumble 0x01#8 0x02#8) ∧
  decode .default (.dir32 0x00410000#32) = .ok (.unknownDir 0x00410000#32) ∧
  decode .default (.method .standardController 0#8 { port := 2, len := 4 }) = .ok (.stdRunBuffer 2 4) ∧
  decode .default (.method .dummy 1#8 { port := 1 }) = .ok (.dummyGetData 1) ∧
  decode .default (.method .dummy 3#8 { port := 3, kind := .dummy, traceEnabled := true }) = .ok (.construct .dummy 3 true)

/-- 30_encoding.md rule R72: the command byte decodes by the first row that matches; with distinct codes each name is decoded from
exactly its own code, and every other byte is UNKNOWN_BUF. The last clause gives the default codes, which are the spec's own decision
D1 (assumption log entry 5). -/
def Obligations.CommandByteDecodesByRow : Prop :=
  (∀ (c : Config) (b : Byte), c.codesDistinct = true →
    (decodeBuf c b = .reset ↔ b = c.cmdReset) ∧ (decodeBuf c b = .origin ↔ b = c.cmdOrigin) ∧
    (decodeBuf c b = .recalibrate ↔ b = c.cmdRecalibrate) ∧
    (decodeBuf c b = .consoleSpecific ↔ b = c.cmdConsoleSpecific) ∧
    ((b ≠ c.cmdReset ∧ b ≠ c.cmdOrigin ∧ b ≠ c.cmdRecalibrate ∧ b ≠ c.cmdConsoleSpecific) ↔ decodeBuf c b = .unknown b)) ∧
  Config.default.cmdReset = 0x00#8 ∧ Config.default.cmdOrigin = 0x41#8 ∧ Config.default.cmdRecalibrate = 0x42#8 ∧
    Config.default.cmdConsoleSpecific = 0xCE#8

/-- 30_encoding.md rules R74 and R75: under the default layout the code is w[23:16], p1 is w[7:0] and p2 is w[15:8]; with distinct codes
each name is decoded from exactly its own code, every other code is UNKNOWN_DIR, and the parameters are the fields as they are. The bit
split and the default codes are the spec's own decisions D5 and D6 (assumption log entry 5). -/
def Obligations.DirectWordDecodesByRow : Prop :=
  (∀ (c : Config) (w : Word), c.codesDistinct = true → c.directLayout = .default →
    ((w.extractLsb' 16 8 = c.dcmdNop) ↔ decodeDir c w = .nop (w.extractLsb' 0 8) (w.extractLsb' 8 8)) ∧
    ((w.extractLsb' 16 8 = c.dcmdRumble) ↔ decodeDir c w = .rumble (w.extractLsb' 0 8) (w.extractLsb' 8 8)) ∧
    ((w.extractLsb' 16 8 ≠ c.dcmdNop ∧ w.extractLsb' 16 8 ≠ c.dcmdRumble) ↔ decodeDir c w = .unknown w)) ∧
  Config.default.dcmdNop = 0x00#8 ∧ Config.default.dcmdRumble = 0x40#8 ∧ Config.default.directLayout = .default

/-- 30_encoding.md rule R76: two words that differ only in bits 31:24 decode to the same command with the same parameters, or each is
UNKNOWN_DIR; the event of UNKNOWN_DIR carries the whole raw word. The split is the spec's own decision D5. -/
def Obligations.DirectTopByteIgnored : Prop :=
  (∀ w w' : Word, w.extractLsb' 0 24 = w'.extractLsb' 0 24 →
    decodeDir .default w = decodeDir .default w' ∨
      (decodeDir .default w = .unknown w ∧ decodeDir .default w' = .unknown w')) ∧
  ∀ (s : State) (c : OpenCall) (d : Device) (w : Word), s.inDirectCall c d →
    exec (.unknownDir w) s =
      .next { s with call := some { c with events := c.events ++ [.unrecognizedDirectCommand c.port w] } }

/-- 30_encoding.md rule R84: under the default codes exactly the bytes 0x00, 0x41, 0x42, 0xCE are decoded by name and 252 are UNKNOWN_BUF;
of the 256 values of dcmd exactly 0x00 and 0x40 are decoded by name and 254 are UNKNOWN_DIR. The rule is the spec's own inference, and
the codes are its decisions D1 and D6. -/
def Obligations.DecodedCodeCounts : Prop :=
  (List.range 256).filter (fun n => decide (decodeBuf .default (BitVec.ofNat 8 n) ≠ .unknown (BitVec.ofNat 8 n))) =
      [0x00, 0x41, 0x42, 0xCE] ∧
  (List.range 256).countP (fun n => decide (decodeBuf .default (BitVec.ofNat 8 n) = .unknown (BitVec.ofNat 8 n))) = 252 ∧
  (List.range 256).filter (fun n => decide (decodeDir .default (BitVec.ofNat 32 (65536 * n)) ≠
      .unknown (BitVec.ofNat 32 (65536 * n)))) = [0x00, 0x40] ∧
  (List.range 256).countP (fun n => decide (decodeDir .default (BitVec.ofNat 32 (65536 * n)) =
      .unknown (BitVec.ofNat 32 (65536 * n)))) = 254

/-- The method selectors are 0 to 3 (30_encoding.md rule R82); a packet is rejected exactly when its selector is none of them, by name. The selectors are the spec's own numbering (decision D21); that
a packet may hold another one, and its rejection, are the model's choice (assumption log entry 24). -/
def Obligations.SelectorsAboveThreeRejected : Prop :=
  ∀ (c : Config) (p : Packet) (e : DecodeError),
    decode c p = .error e ↔ ∃ v sel args, p = .method v sel args ∧ 3 < sel.toNat ∧ e = .unknownSelector sel

/-! ## The command buffer -/

/-- 20_memory.md rule R53: `swz(4k + j) = 4k + (3 - j)` for `0 <= j <= 3`, and the swizzle is its own inverse. -/
def Obligations.SwizzleReversesEachGroup : Prop :=
  (∀ i, swz i = i ^^^ 3) ∧ (∀ k j, j ≤ 3 → swz (4 * k + j) = 4 * k + (3 - j)) ∧ ∀ i, swz (swz i) = i

/-- 20_memory.md rule R55: a 32-bit word the host stores little-endian at physical 4k .. 4k+3 is read, at logical 4k .. 4k+3, in big-endian
order. The rule is the spec's own inference from rules R53 and R54. -/
def Obligations.LogicalStreamIsBigEndian : Prop :=
  ∀ (c : Config) (len k : Nat) (m : Memory) (w : Word), m.wf = true → 4 * k + 4 ≤ bound c len →
    let m' := Memory.write (Memory.write (Memory.write (Memory.write m (4 * k) (w.extractLsb' 0 8)) (4 * k + 1)
      (w.extractLsb' 8 8)) (4 * k + 2) (w.extractLsb' 16 8)) (4 * k + 3) (w.extractLsb' 24 8)
    bufRead c len m' (4 * k) = .ok (w.extractLsb' 24 8) ∧ bufRead c len m' (4 * k + 1) = .ok (w.extractLsb' 16 8) ∧
    bufRead c len m' (4 * k + 2) = .ok (w.extractLsb' 8 8) ∧ bufRead c len m' (4 * k + 3) = .ok (w.extractLsb' 0 8)

/-- 20_memory.md rule R61 for the standard controller: a whole `RunBuffer` call changes at most the bytes at the swizzled indices of the
four reply bytes of RESET or of the origin record. That the other bytes are kept is the spec's own decision D25. -/
def Obligations.StdRunBufferWritesOnlyReply : Prop :=
  ∀ (s t : State) (port len : Nat) (d : Device) (a : Nat), s.buf.wf = true → findDevice port s.devices = some d →
    exec (.stdRunBuffer port len) s = .next t → Memory.read t.buf a ≠ Memory.read s.buf a →
    ∃ k, k < max 4 d.origin.length ∧ a = swz k

/-! ## Buffer commands inside a RunBuffer call -/

/-- 41_std_buffer_commands.md rule R122: RESET overwrites physical bytes 0..3 with ID_WORD, `buf[3] = ID_WORD[31:24]` down to
`buf[0] = ID_WORD[7:0]`, whatever stood there, changes no other byte and no device state, emits no event, and sets the cursor to
`len`; it faults under neither policy when `len >= 1`. That every other byte and the device are unchanged are the spec's own decisions
D25 and D22 (assumption log entry 22); that the command itself sets the cursor, as rule R120 does after it, is the model's reading
(assumption log entry 25). -/
def Obligations.ResetWritesIdWord : Prop :=
  ∀ (s : State) (c : OpenCall) (len pos : Nat) (d : Device), s.inBufferCall c len pos d →
    d.variant = .standardController → s.buf.wf = true → configCheck s.cfg = none → 1 ≤ len → len ≤ s.cfg.bufCap →
    ∃ m, exec .reset s = .next { s with buf := m, call := some { c with frame := .runBuffer len len } } ∧
      Memory.read m 3 = s.cfg.idWord.extractLsb' 24 8 ∧ Memory.read m 2 = s.cfg.idWord.extractLsb' 16 8 ∧
      Memory.read m 1 = s.cfg.idWord.extractLsb' 8 8 ∧ Memory.read m 0 = s.cfg.idWord.extractLsb' 0 8 ∧
      ∀ a, 4 ≤ a → Memory.read m a = Memory.read s.buf a

/-- 41_std_buffer_commands.md rules R123, R124 and R129: when every index of the record is inside the bound, ORIGIN and RECALIBRATE copy the
record byte for byte to the swizzled indices from logical 0 on, change no other byte and no device state, emit no event, set the
cursor to `len`, and answer the same. The bound is met when the last byte's group is inside it. That RECALIBRATE only copies is the
spec's own decision D9, and that the other bytes are unchanged its decision D25; for the cursor see assumption log entry 25. -/
def Obligations.OriginAndRecalibrateCopyRecord : Prop :=
  ∀ (s : State) (c : OpenCall) (len pos : Nat) (d : Device), s.inBufferCall c len pos d →
    d.variant = .standardController → s.buf.wf = true → configCheck s.cfg = none → len ≤ s.cfg.bufCap →
    swz (d.origin.length - 1) < bound s.cfg len →
    ∃ m, exec .origin s = .next { s with buf := m, call := some { c with frame := .runBuffer len len } } ∧
      exec .recalibrate s = .next { s with buf := m, call := some { c with frame := .runBuffer len len } } ∧
      (∀ k (h : k < d.origin.length), Memory.read m (swz k) = d.origin[k]) ∧
      ∀ a, (∀ k, k < d.origin.length → a ≠ swz k) → Memory.read m a = Memory.read s.buf a

/-- 41_std_buffer_commands.md rule R123, fault line, with 60_exceptions.md rule R207: when the bound ends inside the record, ORIGIN and
RECALIBRATE raise `BufferOutOfBounds` at the first index outside, with no effect on the buffer or the host, and the device is marked.
Under the Length policy that is so exactly when `roundup4(len) < roundup4(ORIGIN_LEN)`. Failing closed is the spec's own decision
D7; the next state a fault gives is the model's choice (assumption log entry 1). -/
def Obligations.OriginFaultsOutsideBound : Prop :=
  ∀ (s : State) (c : OpenCall) (len pos : Nat) (d : Device) (i : Instr), s.inBufferCall c len pos d →
    d.variant = .standardController → configCheck s.cfg = none → i = .origin ∨ i = .recalibrate →
    (bound s.cfg len < d.origin.length →
      exec i s = .next { s with
        devices := markFaulted c.port (.bufferOutOfBounds (bound s.cfg len + 3)) s.devices
        call := none
        result := some (.faulted (.bufferOutOfBounds (bound s.cfg len + 3))) }) ∧
    (s.cfg.boundsPolicy = .length →
      (bound s.cfg len < d.origin.length ↔ roundup4 len < roundup4 d.origin.length))

/-- 41_std_buffer_commands.md rule R125, 60_exceptions.md rule R205: CONSOLE_SPECIFIC leaves the buffer as it was, sets the cursor to `len`,
and emits the trace-class event exactly when tracing is on. The event is the spec's own decision D23; for the
cursor see assumption log entry 25. -/
def Obligations.ConsoleSpecificOnlyTraces : Prop :=
  ∀ (s : State) (c : OpenCall) (len pos : Nat) (d : Device), s.inBufferCall c len pos d → d.variant = .standardController →
    exec .consoleSpecific s = .next { s with
      call := some { c with
        frame := .runBuffer len len
        events := if d.traceEnabled then c.events ++ [.consoleSpecificIgnored c.port s.cfg.cmdConsoleSpecific] else c.events } }

/-- 41_std_buffer_commands.md rule R126: UNKNOWN_BUF leaves the buffer as it was, emits exactly one error event with the port and the byte,
whether or not tracing is on, and sets the cursor to `len`. That the buffer is unchanged is the spec's own decision D10;
for the cursor see assumption log entry 25. -/
def Obligations.UnknownBufReportsOnce : Prop :=
  ∀ (s : State) (c : OpenCall) (len pos : Nat) (d : Device) (cmd : Byte), s.inBufferCall c len pos d →
    d.variant = .standardController →
    exec (.unknownBuf cmd) s = .next { s with
      call := some { c with
        frame := .runBuffer len len
        events := c.events ++ [.unrecognizedBufferCommand c.port cmd] } }

/-- 40_device_interface.md rule R105 and R107: with tracing on, the hook emits the logical bytes 0 .. len-1 in lines of eight, the last line
shorter; with tracing off it does nothing. It touches nothing else, on either variant. Where a read is outside the bound it raises
`BufferOutOfBounds` at an index outside. When the hook runs is the spec's own decision D13; the next state a fault gives
is the model's choice (assumption log entry 1). -/
def Obligations.TraceHookEmitsLines : Prop :=
  ∀ (s : State) (c : OpenCall) (len pos : Nat) (d : Device), s.inBufferCall c len pos d →
    (d.traceEnabled = false → exec .traceHook s = .next s) ∧
    (d.traceEnabled = true → (∃ k, k < len ∧ bound s.cfg len ≤ swz k) → ∃ p, bound s.cfg len ≤ p ∧
      exec .traceHook s = .next { s with
        devices := markFaulted c.port (.bufferOutOfBounds p) s.devices
        call := none
        result := some (.faulted (.bufferOutOfBounds p)) }) ∧
    (d.traceEnabled = true → (∀ k, k < len → swz k < bound s.cfg len) → ∃ lines : List (List Byte),
      exec .traceHook s = .next { s with call := some { c with events := c.events ++ lines.map (Event.trace c.port) } } ∧
      lines.flatten = (List.range len).map (fun i => Memory.read s.buf (swz i)) ∧
      (∀ l ∈ lines, 1 ≤ l.length ∧ l.length ≤ 8) ∧ ∀ l ∈ lines.dropLast, l.length = 8)

/-! ## Direct commands inside a SendCommand call -/

/-- 43_std_direct_commands.md rule R171: DNOP does nothing, whatever its parameters. -/
def Obligations.DnopDoesNothing : Prop :=
  ∀ (s : State) (c : OpenCall) (d : Device) (p1 p2 : Byte), s.inDirectCall c d → exec (.dnop p1 p2) s = .next s

/-- 43_std_direct_commands.md rules R172 and R175: RUMBLE takes one availability draw, records it, and forwards its parameters unchanged
exactly when the actuator is available; nothing else changes. It holds for every answer of the oracle. The probe's record and the
missing check of the parameters are the spec's own decisions D15 and D16. -/
def Obligations.RumbleForwardsWhenAvailable : Prop :=
  ∀ (s : State) (c : OpenCall) (d : Device) (p1 p2 : Byte), s.inDirectCall c d →
    (s.nextAvail c.port = true →
      exec (.rumble p1 p2) s = .next { s.drawAvail with
        call := some { c with events := c.events ++ [.rumbleProbe c.port true, .rumble c.port p1 p2] } }) ∧
    (s.nextAvail c.port = false →
      exec (.rumble p1 p2) s = .next { s.drawAvail with
        call := some { c with events := c.events ++ [.rumbleProbe c.port false] } })

/-- 43_std_direct_commands.md rule R173, 60_exceptions.md rule R202: UNKNOWN_DIR emits exactly one error event with the port and the whole
32-bit word, and changes nothing else. What the event carries is the spec's own decision D30. -/
def Obligations.UnknownDirReportsOnce : Prop :=
  ∀ (s : State) (c : OpenCall) (d : Device) (w : Word), s.inDirectCall c d →
    exec (.unknownDir w) s =
      .next { s with call := some { c with events := c.events ++ [.unrecognizedDirectCommand c.port w] } }

/-! ## Whole calls on a standard controller -/

/-- 41_std_buffer_commands.md rules R120 and R127: a call whose bytes lie inside the bound reads the command byte once, at logical index 0,
after the trace hook, and runs exactly the one operation it decodes to, with the cursor at 1; then it returns. Where that
operation answers a state in which the call is still in progress, the call's events join the history and its cursor is the
result; where it has raised a fault, that state is the answer. -/
def Obligations.StdRunBufferRunsDecodedCommand : Prop :=
  ∀ (s : State) (port len : Nat) (d : Device), s.idleOn .standardController port d → 1 ≤ len → len ≤ s.cfg.bufCap →
    configCheck s.cfg = none →
    ∃ t, exec (decodeBuf s.cfg (Memory.read s.buf (swz 0))).toInstr { s with
        call := some { port := port, frame := .runBuffer len 1, events := hookEvents d s.buf len } } = .next t ∧
      ((t.call = none ∧ exec (.stdRunBuffer port len) s = .next t) ∨
        ∃ c n, t.call = some c ∧ c.frame = .runBuffer len n ∧
          exec (.stdRunBuffer port len) s =
            .next { t with call := none, events := t.events ++ c.events, result := some (.consumed n) })

/-- 41_std_buffer_commands.md rule R128: the result of a standard-controller RunBuffer that does not fault is `len`, whatever the
command. -/
def Obligations.StdRunBufferResultIsLength : Prop :=
  ∀ (s t : State) (port len : Nat), exec (.stdRunBuffer port len) s = .next t →
    t.result = some (.consumed len) ∨ ∃ r, t.result = some (.faulted r)

/-- A standard-controller RunBuffer completes (41_std_buffer_commands.md rules R120, R128): under a configuration that passes every check,
with room for the record inside the bound, every legal call on an idle device returns `len`; it changes only the buffer and adds
events. -/
def Obligations.StdRunBufferCompletes : Prop :=
  ∀ (s : State) (port len : Nat) (d : Device), s.idleOn .standardController port d → len ≤ s.cfg.bufCap →
    configCheck s.cfg = none → swz (d.origin.length - 1) < bound s.cfg len →
    ∃ m es, exec (.stdRunBuffer port len) s =
      .next { s with buf := m, events := s.events ++ es, result := some (.consumed len) }

/-- 41_std_buffer_commands.md rule R121: with `len = 0` the standard controller reads no byte, writes no byte, emits no event and returns
0. The spec marks this as its own decision D8. -/
def Obligations.EmptyBufferReturnsZero : Prop :=
  ∀ (s : State) (port : Nat) (d : Device), s.idleOn .standardController port d →
    exec (.stdRunBuffer port 0) s = .next { s with result := some (.consumed 0) }

/-- 20_memory.md rule R60 with 60_exceptions.md rule R207: on either variant, `len > BUF_CAP` is refused with `LengthOutOfRange(len)` before any
access: the buffer, the host and the history are as before, and the device is marked. The spec marks the refusal as its own decisions D7 and
D8; the next state a fault gives is the model's choice (assumption log entry 1). -/
def Obligations.OverlongCallIsRefused : Prop :=
  ∀ (s : State) (port len : Nat) (d : Device), s.cfg.bufCap < len →
    (s.idleOn .standardController port d →
      exec (.stdRunBuffer port len) s = .next { s with
        devices := markFaulted port (.lengthOutOfRange len) s.devices
        result := some (.faulted (.lengthOutOfRange len)) }) ∧
    (s.idleOn .dummy port d →
      exec (.dummyRunBuffer port len) s = .next { s with
        devices := markFaulted port (.lengthOutOfRange len) s.devices
        result := some (.faulted (.lengthOutOfRange len)) })

/-- 41_std_buffer_commands.md rule R130: with tracing off, two entry buffers that agree on logical byte 0 give the same result, the same
events and the same device state, and every byte is either changed to the same value in both or unchanged in both. The rule is the spec's own inference from rules R120
and R127. -/
def Obligations.BytesBeyondCommandAreIgnored : Prop :=
  ∀ (s t t' : State) (m' : Memory) (port len : Nat) (d : Device), s.idleOn .standardController port d →
    d.traceEnabled = false → s.buf.wf = true → m'.wf = true → Memory.read s.buf (swz 0) = Memory.read m' (swz 0) →
    exec (.stdRunBuffer port len) s = .next t → exec (.stdRunBuffer port len) { s with buf := m' } = .next t' →
    { t' with buf := [] } = { t with buf := [] } ∧
    ∀ a, Memory.read t'.buf a = Memory.read t.buf a ∨
      (Memory.read t.buf a = Memory.read s.buf a ∧ Memory.read t'.buf a = Memory.read m' a)

/-- 70_reset_and_hazards.md rule R237 with the default codes, tracing off: after a call that runs RESET, a second call on the unchanged
buffer is UNKNOWN_BUF with byte 0x09; after one that runs ORIGIN or RECALIBRATE, the second runs ORIGIN and leaves the buffer's
bytes as they are. The rule is the spec's own inference, and 0x09 comes from its decision D2. -/
def Obligations.ReusedBufferRunsReplyByte : Prop :=
  ∀ (s t : State) (port len : Nat) (d : Device), s.Inv → s.cfg = .default → s.idleOn .standardController port d →
    d.traceEnabled = false → 1 ≤ len → exec (.stdRunBuffer port len) s = .next t → t.result = some (.consumed len) →
    (Memory.read s.buf (swz 0) = 0x00#8 →
      exec (.stdRunBuffer port len) t = .next { t with events := t.events ++ [.unrecognizedBufferCommand port 0x09#8] }) ∧
    (Memory.read s.buf (swz 0) = 0x41#8 ∨ Memory.read s.buf (swz 0) = 0x42#8 →
      Memory.read t.buf (swz 0) = 0x41#8 ∧
      ∃ m, exec (.stdRunBuffer port len) t = .next { t with buf := m } ∧ ∀ a, Memory.read m a = Memory.read t.buf a)

/-- 42_std_polling.md rules R150, R154, R155 and R157: the standard controller's GetData takes one draw, returns new data with the two packed
words, emits the sample and then the microphone button, and changes nothing else: no buffer byte, no device. It holds for every
answer of the oracle. The oracle and the order of the two events are the spec's own decisions D14 and D17. -/
def Obligations.StdGetDataPacksOneSample : Prop :=
  ∀ (s : State) (port : Nat) (d : Device), s.idleOn .standardController port d →
    exec (.stdGetData port) s = .next { s.drawSample with
      polling := some { hasNewData := true, hi := some (packHi (s.nextSample port)), low := some (packLow (s.nextSample port)) }
      events := s.events ++ [.inputSampled port (s.nextSample port), .micButton port (s.nextSample port).micButton]
      result := some .polled }

/-- 42_std_polling.md rules R151 and R153: the Hi word bit by bit, and two samples that differ only in `buttons[7]` give the same Hi.
Both rules are the spec's own inference from rule R150. -/
def Obligations.HiWordBitByBit : Prop :=
  (∀ x : InputSample, (packHi x).extractLsb' 0 8 = x.stickY ∧ (packHi x).extractLsb' 8 8 = x.stickX ∧
    (packHi x).extractLsb' 16 7 = x.buttons.extractLsb' 0 7 ∧ (packHi x).getLsbD 23 = true ∧
    (packHi x).extractLsb' 24 8 = x.buttons.extractLsb' 8 8) ∧
  ∀ x : InputSample, packHi { x with buttons := x.buttons ^^^ 0x0080#16 } = packHi x

/-- 42_std_polling.md rule R152: the Low word bit by bit, with no fixed bits. -/
def Obligations.LowWordBitByBit : Prop :=
  ∀ x : InputSample, (packLow x).extractLsb' 0 8 = x.triggerR ∧ (packLow x).extractLsb' 8 8 = x.triggerL ∧
    (packLow x).extractLsb' 16 8 = x.subStickY ∧ (packLow x).extractLsb' 24 8 = x.subStickX

/-- 43_std_direct_commands.md rules R170 and R174: SendCommand runs exactly the operation the word decodes to and returns nothing; the
command buffer, the device instances and everything else but the oracle's draw and the history are unchanged. -/
def Obligations.StdSendCommandRunsDecodedCommand : Prop :=
  ∀ (s : State) (port : Nat) (w : Word) (d : Device), s.idleOn .standardController port d →
    ∃ t c, exec (decodeDir s.cfg w).toInstr { s with call := some { port := port, frame := .sendCommand, events := [] } } =
        .next t ∧
      t.call = some c ∧
      exec (.stdSendCommand port w) s =
        .next { t with call := none, events := t.events ++ c.events, result := some .sent } ∧
      t.buf = s.buf ∧ t.devices = s.devices ∧ t.retired = s.retired ∧ t.cfg = s.cfg ∧ t.host = s.host ∧
      t.samples = s.samples ∧ t.polling = s.polling ∧ t.events = s.events

/-! ## Whole calls on a dummy -/

/-- 44_dummy_device.md rule R190: for a legal call whose four bytes are inside the bound, the dummy writes the zero word to physical bytes
0..3, leaves every other byte, emits trace lines only, and returns 4, whatever `len` is. The case
`len = 0` is the spec's own decision D8, and that the other bytes are unchanged its decision D25. -/
def Obligations.DummyRunBufferWritesZeroWord : Prop :=
  ∀ (s : State) (port len : Nat) (d : Device), s.idleOn .dummy port d → s.buf.wf = true → len ≤ s.cfg.bufCap →
    configCheck s.cfg = none → (s.cfg.boundsPolicy = .length → 1 ≤ len) →
    ∃ m, exec (.dummyRunBuffer port len) s = .next { s with
        buf := m
        events := s.events ++ hookEvents d s.buf len
        result := some (.consumed 4) } ∧
      (∀ a, a < 4 → Memory.read m a = 0x00#8) ∧ ∀ a, 4 ≤ a → Memory.read m a = Memory.read s.buf a

/-- 44_dummy_device.md rule R190, faults: under the Length policy a dummy call with `len = 0` raises `BufferOutOfBounds(3)`
(95_test_vectors.md L5). The policy is the spec's own decision D7; the next state a fault gives is the model's choice
(assumption log entry 1). -/
def Obligations.DummyEmptyCallFaultsUnderLength : Prop :=
  ∀ (s : State) (port : Nat) (d : Device), s.idleOn .dummy port d → s.cfg.boundsPolicy = .length →
    exec (.dummyRunBuffer port 0) s = .next { s with
      devices := markFaulted port (.bufferOutOfBounds 3) s.devices
      result := some (.faulted (.bufferOutOfBounds 3)) }

/-- 44_dummy_device.md rules R191 and R192: the dummy's GetData returns no new data and no words, its SendCommand accepts every word; neither
emits an event, takes a draw or changes anything else. That the words carry no value is the spec's own decision D11. -/
def Obligations.DummyPollAndSendDoNothing : Prop :=
  ∀ (s : State) (port : Nat) (w : Word) (d : Device), s.idleOn .dummy port d →
    exec (.dummyGetData port) s = .next { s with
      polling := some { hasNewData := false, hi := none, low := none }
      result := some .polled } ∧
    exec (.dummySendCommand port w) s = .next { s with result := some .sent }

/-- 44_dummy_device.md rule R193: an operation of the dummy adds trace lines to the history and no other event, and takes no draw. The
rule is the spec's own inference from rules R190 to R192. -/
def Obligations.DummyEmitsOnlyTraceLines : Prop :=
  ∀ (s t : State) (port len : Nat) (w : Word) (i : Instr),
    i = .dummyRunBuffer port len ∨ i = .dummyGetData port ∨ i = .dummySendCommand port w → exec i s = .next t →
    (∃ lines : List (List Byte), t.events = s.events ++ lines.map (Event.trace port)) ∧
    t.samples = s.samples ∧ t.avails = s.avails ∧ t.draws = s.draws

/-! ## Construction -/

/-- 70_reset_and_hazards.md rule R230: Construct under a configuration that passes every check and for a port in range puts on that port an
instance with the arguments, no fault mark, and for a standard controller the reset record; every other port keeps its instance.
It emits no event. An instance it replaces is kept among the retired, which is the model's own (assumption log entry 11).
The operation's signature is the spec's own decision D13. -/
def Obligations.ConstructPutsNewInstance : Prop :=
  ∀ (s : State) (v : Variant) (port : Nat) (tr : Bool), s.call = none → configCheck s.cfg = none → port < s.cfg.numPorts →
    ∃ ds rs d, exec (.construct v port tr) s =
        .next { s with devices := ds, retired := rs, result := some (.constructed port) } ∧
      d.variant = v ∧ d.port = port ∧ d.traceEnabled = tr ∧ d.faulted = none ∧
      (v = .standardController → d.origin = resetOrigin s.cfg) ∧
      findDevice port ds = some d ∧ (∀ q, q ≠ port → findDevice q ds = findDevice q s.devices) ∧
      rs = s.retired ++ (findDevice port s.devices).toList

/-- 70_reset_and_hazards.md rule R230, 60_exceptions.md rules R207 and R208: Construct is refused under a configuration that fails a check, and else
for a port out of range; then no port's device changes and the host gets the fault. The order of the three checks, the next
state a fault gives, and that no device is marked are the model's choices (assumption log entries 19, 1 and 26). -/
def Obligations.ConstructRefusals : Prop :=
  ∀ (s : State) (v : Variant) (port : Nat) (tr : Bool), s.call = none →
    (∀ check, configCheck s.cfg = some check →
      exec (.construct v port tr) s = .next { s with result := some (.faulted (.configRefused check)) }) ∧
    (configCheck s.cfg = none → s.cfg.numPorts ≤ port →
      exec (.construct v port tr) s = .next { s with result := some (.faulted (.portOutOfRange port)) })

/-- 60_exceptions.md rule R207: a configuration passes every check exactly when the codes are distinct (00_scope.md rule R9), `ORIGIN_LEN` is at least
8, and `BUF_CAP` is a multiple of 4 and at least 4; the default configuration does. The checks are the spec's own decision D7. -/
def Obligations.ConfigurationChecks : Prop :=
  (∀ c : Config, configCheck c = none ↔
    (c.cmdReset ≠ c.cmdOrigin ∧ c.cmdReset ≠ c.cmdRecalibrate ∧ c.cmdReset ≠ c.cmdConsoleSpecific ∧
      c.cmdOrigin ≠ c.cmdRecalibrate ∧ c.cmdOrigin ≠ c.cmdConsoleSpecific ∧ c.cmdRecalibrate ≠ c.cmdConsoleSpecific ∧
      c.dcmdNop ≠ c.dcmdRumble) ∧ 8 ≤ c.originLen ∧ c.bufCap % 4 = 0 ∧ 4 ≤ c.bufCap) ∧
  configCheck .default = none

/-- 70_reset_and_hazards.md rule R231 under the default offsets: the reset record has `ORIGIN_LEN` bytes, 0x41 at offset 0, 0x00 at 1, 0x80 at
2 to 5, 0x1F at 6 and 7, and 0x00 from 8 on, for every length of at least 8. The offsets and the 0x00 bytes are the spec's own decisions
D3 and D4. -/
def Obligations.ResetOriginBytes : Prop :=
  ∀ c : Config, c.originLayout = .default → 8 ≤ c.originLen →
    (resetOrigin c).length = c.originLen ∧
    (resetOrigin c).take 8 = [0x41#8, 0x00#8, 0x80#8, 0x80#8, 0x80#8, 0x80#8, 0x1F#8, 0x1F#8] ∧
    ∀ i (h : i < (resetOrigin c).length), 8 ≤ i → (resetOrigin c)[i] = 0x00#8

/-! ## The step -/

/-- A step runs the decoded instruction: when the host's next action is a call that the decoder reads as an operation, the step is
`exec` of that operation on the state with the action taken. For a call of RunBuffer, GetData or
SendCommand the operation is that of the variant of the device on the port (40_device_interface.md rule R104). -/
def Obligations.StepRunsDecodedInstruction : Prop :=
  ∀ (s : State) (rest : List HostAct) (d : Device) (port len : Nat) (w : Word) (v : Variant) (tr : Bool),
    (s.host = .construct v port tr :: rest → step s = exec (.construct v port tr) { s with host := rest }) ∧
    (findDevice port s.devices = some d → d.variant = .standardController →
      (s.host = .runBuffer port len :: rest → step s = exec (.stdRunBuffer port len) { s with host := rest }) ∧
      (s.host = .getData port :: rest → step s = exec (.stdGetData port) { s with host := rest }) ∧
      (s.host = .sendCommand port w :: rest → step s = exec (.stdSendCommand port w) { s with host := rest })) ∧
    (findDevice port s.devices = some d → d.variant = .dummy →
      (s.host = .runBuffer port len :: rest → step s = exec (.dummyRunBuffer port len) { s with host := rest }) ∧
      (s.host = .getData port :: rest → step s = exec (.dummyGetData port) { s with host := rest }) ∧
      (s.host = .sendCommand port w :: rest → step s = exec (.dummySendCommand port w) { s with host := rest }))

/-- 70_reset_and_hazards.md rule R239: after a GetData with new data the host reads Hi and Low; a host that reads them when they carry no value
faults. (The host's actions are the model's own, assumption log entries 3 and 15.) -/
def Obligations.ReadingUnwrittenWordsFaults : Prop :=
  ∀ (s : State) (rest : List HostAct), s.host = .readPolling :: rest →
    (∀ p hi low, s.polling = some p → p.hi = some hi → p.low = some low → step s = .next { s with host := rest }) ∧
    (∀ p, s.polling = some p → (p.hi = none ∨ p.low = none) → step s = .fault .noPollingWord) ∧
    (s.polling = none → step s = .fault .noPollingWord)

/-- The host's own write between calls changes one byte of its buffer and nothing else, a write outside the buffer stops, and a step with
nothing to do changes nothing
(10_state.md rule R37, 70_reset_and_hazards.md rule R234; the host's actions are the model's own, assumption log entries 3 and 16). -/
def Obligations.HostWritesItsOwnBuffer : Prop :=
  (∀ s : State, s.host = [] → step s = .next s) ∧
  ∀ (s : State) (rest : List HostAct) (p : Nat) (v : Byte), s.host = .writeBuf p v :: rest → s.call = none →
    (s.buf.wf = true → p < s.cfg.bufCap →
      ∃ m, step s = .next { s with buf := m, host := rest } ∧ m.wf = true ∧
        ∀ a, Memory.read m a = if a = p then v else Memory.read s.buf a) ∧
    (s.cfg.bufCap ≤ p → step s = .fault (.hostWriteOutsideBuffer p))

/-- The invariant `State.Inv` is kept by every step, from every state that meets it. -/
def Obligations.StepKeepsInvariant : Prop :=
  ∀ s t : State, s.Inv → step s = .next t → t.Inv

/-- The machine at reset meets the invariant. -/
def Obligations.ResetMeetsInvariant : Prop := State.reset.Inv

/-- 40_device_interface.md rule R110: no operation but Construct changes the variant, the port, the trace flag or the origin record of any
instance, or which ports hold one; and no operation at all changes the configuration. The rule is the spec's own inference from 10_state.md rules
R21, R22, R26 and R28. -/
def Obligations.OnlyConstructSetsDeviceFields : Prop :=
  ∀ (i : Instr) (s t : State), exec i s = .next t →
    t.cfg = s.cfg ∧
    ((∀ v p tr, i ≠ .construct v p tr) →
      t.devices.map (fun d => (d.variant, d.port, d.traceEnabled, d.origin)) =
        s.devices.map (fun d => (d.variant, d.port, d.traceEnabled, d.origin)) ∧ t.retired = s.retired)

/-- 10_state.md rule R38: no later step clears a fault mark. An instance that carries one still carries it after any step, on its port or
among the instances the host has replaced (assumption log entry 11), so a run that was not good stays so. The mark is the spec's own decision
D20. -/
def Obligations.FaultMarkIsNeverCleared : Prop :=
  ∀ s t : State, step s = .next t →
    (∀ d ∈ s.devices ++ s.retired, d.faulted.isSome = true →
      ∃ e ∈ t.devices ++ t.retired, e.port = d.port ∧ e.variant = d.variant ∧ e.origin = d.origin ∧ e.faulted.isSome = true) ∧
    (t.good → s.good)

/-- 10_state.md rule R38: a device with its fault mark set has no further step. Every call on it stops the machine, which is how the
model says it (assumption log entry 2). -/
def Obligations.FaultedDeviceHasNoStep : Prop :=
  ∀ (s : State) (port len : Nat) (w : Word) (d : Device) (r : FaultReason) (i : Instr), s.call = none →
    findDevice port s.devices = some d → d.faulted = some r →
    i = .stdRunBuffer port len ∨ i = .stdGetData port ∨ i = .stdSendCommand port w ∨ i = .dummyRunBuffer port len ∨
      i = .dummyGetData port ∨ i = .dummySendCommand port w →
    exec i s = .fault (.deviceFaulted port r)

/-- A call needs a device to receive it and no other call in progress: a call on a port without a device, one in another call, or one of
the other variant's operation stops, and so does `Construct` inside a call. The stops are the model's choice (assumption log entries 12
to 14); 70_reset_and_hazards.md rule R238 leaves overlapping calls outside. -/
def Obligations.CallsNeedReceiver : Prop :=
  ∀ (s : State) (v : Variant) (port len : Nat) (w : Word) (tr : Bool) (i : Instr),
    (v = .standardController ∧ (i = .stdRunBuffer port len ∨ i = .stdGetData port ∨ i = .stdSendCommand port w) ∨
      v = .dummy ∧ (i = .dummyRunBuffer port len ∨ i = .dummyGetData port ∨ i = .dummySendCommand port w)) →
    (s.call ≠ none → exec i s = .fault .overlappingCall ∧ exec (.construct v port tr) s = .fault .overlappingCall) ∧
    (s.call = none → findDevice port s.devices = none → exec i s = .fault (.noDevice port)) ∧
    (∀ d, s.call = none → findDevice port s.devices = some d → d.faulted = none → d.variant ≠ v →
      exec i s = .fault (.wrongVariant port))

/-- A command runs only inside the call that decodes it: the buffer commands and the trace hook need a `RunBuffer` call, the direct
commands a `SendCommand` call, and both a device that can take a step. The stops are the model's choice (assumption log entry 12). -/
def Obligations.CommandsNeedTheirCall : Prop :=
  ∀ (s : State) (cmd p1 p2 : Byte) (w : Word) (i : Instr),
    ((i = .reset ∨ i = .origin ∨ i = .recalibrate ∨ i = .consoleSpecific ∨ i = .unknownBuf cmd ∨ i = .traceHook) →
      (∀ c len pos, s.call = some c → c.frame ≠ .runBuffer len pos) → exec i s = .fault .noOpenCall) ∧
    ((i = .dnop p1 p2 ∨ i = .rumble p1 p2 ∨ i = .unknownDir w) →
      (∀ c, s.call = some c → c.frame ≠ .sendCommand) → exec i s = .fault .noOpenCall) ∧
    ∀ c len pos d r, s.call = some c → findDevice c.port s.devices = some d → d.faulted = some r →
      (c.frame = .runBuffer len pos → (i = .reset ∨ i = .origin ∨ i = .recalibrate ∨ i = .consoleSpecific ∨
        i = .unknownBuf cmd ∨ i = .traceHook) → exec i s = .fault (.deviceFaulted c.port r)) ∧
      (c.frame = .sendCommand → (i = .dnop p1 p2 ∨ i = .rumble p1 p2 ∨ i = .unknownDir w) →
        exec i s = .fault (.deviceFaulted c.port r))

/-- 60_exceptions.md rules R200 and R209: a step only appends to the history, and among the events it appends at most one is error-class. The bound is the spec's own
decision D20. -/
def Obligations.StepAppendsAtMostOneError : Prop :=
  ∀ s t : State, step s = .next t →
    ∃ es, t.events = s.events ++ es ∧ (es.filter Event.isErrorClass).length ≤ 1

/-- 60_exceptions.md rules R201 and R202, Code and Model number: the two error kinds are numbered 1 and 2, and an event reports a kind
exactly when it is one of the two error events. The numbers are the spec's own decision D30 (assumption log entry 27). -/
def Obligations.ErrorKindsAreNumbered : Prop :=
  (∀ port cmd, (Event.unrecognizedBufferCommand port cmd).errorNumber = some 1) ∧
  (∀ port w, (Event.unrecognizedDirectCommand port w).errorNumber = some 2) ∧
  (∀ e : Event, e.errorNumber = some 1 ↔ ∃ port cmd, e = .unrecognizedBufferCommand port cmd) ∧
  (∀ e : Event, e.errorNumber = some 2 ↔ ∃ port w, e = .unrecognizedDirectCommand port w) ∧
  ∀ e : Event, e.isErrorClass = true ↔ e.errorNumber = some 1 ∨ e.errorNumber = some 2

/-- 60_exceptions.md rules R201, R202 and R206, cause and raiser: the error-class events a whole call adds. A standard RunBuffer that
returns adds UnrecognizedBufferCommand with the byte read exactly when that byte matches none of the four codes; a standard SendCommand
adds UnrecognizedDirectCommand with its word exactly when the word's code matches neither of the two; a call that raises a fault, a
GetData, an operation of the dummy and Construct add none. What the events carry is the spec's own decision D30. -/
def Obligations.ErrorsOnlyFromUnknownCommands : Prop :=
  ∀ (s t : State) (port len : Nat) (w : Word) (v : Variant) (tr : Bool),
    (exec (.stdRunBuffer port len) s = .next t → ∃ es, t.events = s.events ++ es ∧
      es.filter Event.isErrorClass =
        if t.result = some (.consumed len) ∧ 1 ≤ len ∧
            decodeBuf s.cfg (Memory.read s.buf (swz 0)) = .unknown (Memory.read s.buf (swz 0))
        then [.unrecognizedBufferCommand port (Memory.read s.buf (swz 0))] else []) ∧
    (exec (.stdSendCommand port w) s = .next t → ∃ es, t.events = s.events ++ es ∧
      es.filter Event.isErrorClass =
        if decodeDir s.cfg w = .unknown w then [.unrecognizedDirectCommand port w] else []) ∧
    ∀ i : Instr, i = .stdGetData port ∨ i = .dummyRunBuffer port len ∨ i = .dummyGetData port ∨ i = .dummySendCommand port w ∨
        i = .construct v port tr →
      exec i s = .next t → ∃ es, t.events = s.events ++ es ∧ es.filter Event.isErrorClass = []

/-- 60_exceptions.md rules R211 and R220: a call on one port leaves the instance of every other port as it is. That ports share no state is the spec's own
decision D12. -/
def Obligations.OtherPortsAreUntouched : Prop :=
  ∀ (s t : State) (port q len : Nat) (w : Word) (v : Variant) (tr : Bool) (i : Instr),
    i = .stdRunBuffer port len ∨ i = .stdGetData port ∨ i = .stdSendCommand port w ∨ i = .dummyRunBuffer port len ∨
      i = .dummyGetData port ∨ i = .dummySendCommand port w ∨ i = .construct v port tr →
    exec i s = .next t → q ≠ port → findDevice q t.devices = findDevice q s.devices

/-- 60_exceptions.md rule R207: a call that raises a fault has no effect on the buffer or the host: the buffer, the history, the polling
words and the oracles are as before, and no instance changes but the marked one. The faults are the spec's own decision D7; that a
fault gives a next state, and the result it leaves, are the model's choice (assumption log entry 1). -/
def Obligations.FaultingCallHasNoEffect : Prop :=
  ∀ (s t : State) (port len : Nat) (w : Word) (i : Instr) (r : FaultReason),
    i = .stdRunBuffer port len ∨ i = .stdGetData port ∨ i = .stdSendCommand port w ∨ i = .dummyRunBuffer port len ∨
      i = .dummyGetData port ∨ i = .dummySendCommand port w →
    exec i s = .next t → t.result = some (.faulted r) →
    t = { s with devices := markFaulted port r s.devices, result := some (.faulted r) } ∧
    ∃ d, findDevice port t.devices = some d ∧ d.faulted = some r

/-- 40_device_interface.md rule R108: whether tracing is on never changes the buffer, the result, the device state or any non-trace event of a
call, under a configuration that passes every check. The rule is the spec's own inference from rules R105 and R107. -/
def Obligations.TracingChangesNothingElse : Prop :=
  ∀ (s t : State) (port len : Nat) (w : Word) (i : Instr), configCheck s.cfg = none →
    i = .stdRunBuffer port len ∨ i = .stdGetData port ∨ i = .stdSendCommand port w ∨ i = .dummyRunBuffer port len ∨
      i = .dummyGetData port ∨ i = .dummySendCommand port w →
    exec i s = .next t → exec i s.withoutTrace = .next t.withoutTrace

/-- 60_exceptions.md rule R207: under the default configuration no call reaches `BufferOutOfBounds`: from every state that meets the
invariant, no operation ends with that fault. The fault is the spec's own decision D7. -/
def Obligations.DefaultNeverOutOfBounds : Prop :=
  ∀ (i : Instr) (s t : State) (p : Nat), s.Inv → s.cfg = .default → exec i s = .next t →
    t.result ≠ some (.faulted (.bufferOutOfBounds p))

/-- 42_std_polling.md rule R156, 60_exceptions.md rules R214 and R216: the k-th answers the environment has decided are the ones the draws give: a draw of
either oracle takes exactly one answer, and a GetData, a SendCommand or a RunBuffer takes none but its own. The oracles are the
spec's own decisions D14 and D15; the queue of decided answers is the model's (assumption log entries 9 and 10). -/
def Obligations.EachDrawTakesOneAnswer : Prop :=
  ∀ (s t : State) (port len : Nat) (w : Word),
    (exec (.stdGetData port) s = .next t →
      t.avails = s.avails ∧ ((∃ x, s.samples = x :: t.samples ∧ t.draws = s.draws ∧ s.nextSample port = x) ∨
        (s.samples = [] ∧ t.samples = [] ∧ t.draws = s.draws + 1 ∧ s.nextSample port = Config.freeSample port s.draws))) ∧
    (exec (.stdSendCommand port w) s = .next t →
      t.samples = s.samples ∧ ((∃ p1 p2, decodeDir s.cfg w = .rumble p1 p2) →
        (∃ x, s.avails = x :: t.avails ∧ t.draws = s.draws) ∨ (s.avails = [] ∧ t.avails = [] ∧ t.draws = s.draws + 1)) ∧
        ((∀ p1 p2, decodeDir s.cfg w ≠ .rumble p1 p2) → t.avails = s.avails ∧ t.draws = s.draws)) ∧
    (exec (.stdRunBuffer port len) s = .next t → t.samples = s.samples ∧ t.avails = s.avails ∧ t.draws = s.draws)
end

