-- ==== Sys2Proof/Laws/Index.lean ====
section
/-! SUPPORT. The index transform and the bound's rounding. -/

namespace Sys2Proof.Machine

theorem swz_mod (i : Nat) : swz i % 4 = (i % 4) ^^^ 3 := by
  have h := Nat.xor_mod_two_pow (a := i) (b := 3) (n := 2)
  simpa [swz] using h

theorem swz_div (i : Nat) : swz i / 4 = i / 4 := by
  have h := Nat.xor_div_two_pow (a := i) (b := 3) (n := 2)
  simpa [swz] using h

/-- Where the swizzle sends an index: the same group of four, the byte order inside it reversed (20_memory.md rule R53). -/
theorem swz_eq (i : Nat) : swz i = 4 * (i / 4) + (3 - i % 4) := by
  have hm : swz i % 4 = 3 - i % 4 := by
    rw [swz_mod]
    have h : i % 4 < 4 := Nat.mod_lt _ (by omega)
    generalize i % 4 = r at h
    match r, h with
    | 0, _ => rfl
    | 1, _ => rfl
    | 2, _ => rfl
    | 3, _ => rfl
  have := swz_div i
  omega

theorem swz_inj {i j : Nat} (h : swz i = swz j) : i = j := by
  rw [swz_eq, swz_eq] at h
  omega

/-- A bound that is a multiple of four admits the swizzled index exactly when it admits the index. -/
theorem swz_lt {b : Nat} (hb : b % 4 = 0) (i : Nat) : swz i < b ↔ i < b := by
  rw [swz_eq]
  omega

theorem le_roundup4 (n : Nat) : n ≤ roundup4 n := by
  unfold roundup4
  omega

theorem roundup4_mod (n : Nat) : roundup4 n % 4 = 0 := by
  unfold roundup4
  omega

/-- `roundup4 n` is the least multiple of four from `n` on. -/
theorem roundup4_le {n b : Nat} (hb : b % 4 = 0) (h : n ≤ b) : roundup4 n ≤ b := by
  unfold roundup4
  omega

/-! ## The lines of a trace -/

theorem traceLinesFuel_flatten (fuel : Nat) (bs : List Byte) (h : bs.length ≤ fuel) :
    (traceLinesFuel fuel bs).flatten = bs := by
  induction fuel generalizing bs with
  | zero => simp at h; simp [traceLinesFuel, h]
  | succ n ih =>
    cases bs with
    | nil => simp [traceLinesFuel]
    | cons b rest =>
      rw [traceLinesFuel, List.flatten_cons, ih _ (by simp at h ⊢; omega), List.take_append_drop]

/-- The lines hold the bytes, in order. -/
theorem traceLines_flatten (bs : List Byte) : (traceLines bs).flatten = bs :=
  traceLinesFuel_flatten _ bs (Nat.le_refl _)

theorem traceLinesFuel_length (fuel : Nat) (bs : List Byte) :
    ∀ l ∈ traceLinesFuel fuel bs, 1 ≤ l.length ∧ l.length ≤ 8 := by
  induction fuel generalizing bs with
  | zero => simp [traceLinesFuel]
  | succ n ih =>
    cases bs with
    | nil => simp [traceLinesFuel]
    | cons b rest =>
      intro l hl
      rw [traceLinesFuel, List.mem_cons] at hl
      rcases hl with rfl | hl
      · simp
      · exact ih _ l hl

/-- A line holds 1 to 8 bytes. -/
theorem traceLines_length (bs : List Byte) : ∀ l ∈ traceLines bs, 1 ≤ l.length ∧ l.length ≤ 8 :=
  traceLinesFuel_length _ bs

end Sys2Proof.Machine
end

