-- ==== Sys2Proof/Laws/Memory.lean ====
section
/-! SUPPORT. The laws of the buffer's bytes: a read after a write, and every write keeps the canonical form. -/

namespace Sys2Proof.Machine.Memory

open Sys2Proof

theorem wfFrom_mono {lo lo' : Nat} {m : Memory} (h : wfFrom lo m = true) (hle : lo' ≤ lo) : wfFrom lo' m = true := by
  cases m with
  | nil => rfl
  | cons c rest =>
    simp only [wfFrom, Bool.and_eq_true, decide_eq_true_eq] at h ⊢
    exact ⟨⟨by omega, h.1.2⟩, h.2⟩

/-- Below the first index of a canonical form nothing is listed. -/
theorem read_below {lo p : Nat} {m : Memory} (h : wfFrom lo m = true) (hp : p < lo) :
    read m p = Config.unlistedByte := by
  induction m generalizing lo with
  | nil => rfl
  | cons c rest ih =>
    simp only [wfFrom, Bool.and_eq_true, decide_eq_true_eq] at h
    rw [read, if_neg (by omega)]
    exact ih h.2 (by omega)

theorem read_write_from {lo : Nat} {m : Memory} (h : wfFrom lo m = true) (p q : Nat) (v : Byte) :
    read (write m p v) q = if q = p then v else read m q := by
  induction m generalizing lo with
  | nil =>
    by_cases hv : v = Config.unlistedByte
    · simp [write, read, hv]
    · by_cases hq : q = p
      · simp [write, read, hv, hq]
      · simp [write, read, hv, hq, Ne.symm hq]
  | cons c rest ih =>
    obtain ⟨a, u⟩ := c
    simp only [wfFrom, Bool.and_eq_true, decide_eq_true_eq] at h
    have hrest := ih h.2
    rw [write]
    split
    · rename_i hap
      rw [read, hrest, read]
      by_cases haq : a = q
      · rw [if_pos haq, if_pos haq, if_neg (by omega)]
      · rw [if_neg haq, if_neg haq]
    · rename_i hap
      split
      · rename_i haeq
        by_cases hq : q = p
        · rw [if_pos hq]
          split
          · rename_i hv
            rw [hv]
            exact read_below h.2 (by omega)
          · rw [read, if_pos hq.symm]
        · rw [if_neg hq]
          split
          · rw [read, if_neg (by omega)]
          · rw [read, if_neg (Ne.symm hq), read, if_neg (by omega)]
      · rename_i haeq
        split
        · rename_i hv
          by_cases hq : q = p
          · rw [if_pos hq, hq, hv, read, if_neg (by omega)]
            exact read_below h.2 (by omega)
          · rw [if_neg hq]
        · by_cases hq : q = p
          · rw [read, if_pos hq.symm, if_pos hq]
          · rw [read, if_neg (Ne.symm hq), if_neg hq]

/-- A read after a write. -/
theorem read_write {m : Memory} (h : wf m = true) (p q : Nat) (v : Byte) :
    read (write m p v) q = if q = p then v else read m q := read_write_from h p q v

theorem write_wfFrom {lo : Nat} {m : Memory} (h : wfFrom lo m = true) {p : Nat} (hp : lo ≤ p) (v : Byte) :
    wfFrom lo (write m p v) = true := by
  induction m generalizing lo with
  | nil =>
    by_cases hv : v = Config.unlistedByte
    · simp [write, hv, wfFrom]
    · simp [write, hv, wfFrom, hp]
  | cons c rest ih =>
    obtain ⟨a, u⟩ := c
    simp only [wfFrom, Bool.and_eq_true, decide_eq_true_eq, bne_iff_ne, ne_eq] at h
    rw [write]
    split
    · simp only [wfFrom, Bool.and_eq_true, decide_eq_true_eq, bne_iff_ne, ne_eq]
      exact ⟨h.1, ih h.2 (by omega)⟩
    · split
      · split
        · exact wfFrom_mono h.2 (by omega)
        · rename_i haeq hv
          simp only [wfFrom, Bool.and_eq_true, decide_eq_true_eq, bne_iff_ne, ne_eq]
          exact ⟨⟨hp, hv⟩, haeq ▸ h.2⟩
      · split
        · simp only [wfFrom, Bool.and_eq_true, decide_eq_true_eq, bne_iff_ne, ne_eq]
          exact h
        · rename_i hap haeq hv
          simp only [wfFrom, Bool.and_eq_true, decide_eq_true_eq, bne_iff_ne, ne_eq]
          exact ⟨⟨hp, hv⟩, ⟨by omega, h.1.2⟩, h.2⟩

/-- A write keeps the canonical form. -/
theorem write_wf {m : Memory} (h : wf m = true) (p : Nat) (v : Byte) : wf (write m p v) = true :=
  write_wfFrom h (Nat.zero_le p) v

/-- A write lists no index but its own and those listed before. -/
theorem mem_write {m : Memory} {p : Nat} {v : Byte} {cell : Host.Cell} (h : cell ∈ write m p v) :
    cell.1 = p ∨ cell ∈ m := by
  induction m with
  | nil =>
    by_cases hv : v = Config.unlistedByte
    · simp [write, hv] at h
    · simp [write, hv] at h; exact .inl (by rw [h])
  | cons c rest ih =>
    obtain ⟨a, u⟩ := c
    rw [write] at h
    split at h
    · rcases List.mem_cons.1 h with h | h
      · exact .inr (h ▸ List.mem_cons_self)
      · exact (ih h).imp_right (List.mem_cons_of_mem _)
    · split at h
      · split at h
        · exact .inr (List.mem_cons_of_mem _ h)
        · rcases List.mem_cons.1 h with h | h
          · exact .inl (by rw [h])
          · exact .inr (List.mem_cons_of_mem _ h)
      · split at h
        · exact .inr h
        · rcases List.mem_cons.1 h with h | h
          · exact .inl (by rw [h])
          · exact .inr h

/-- The buffer at reset is in its canonical form. -/
theorem reset_wf : wf State.reset.buf = true := rfl

end Sys2Proof.Machine.Memory
end

