-- ==== Sys2Proof/Laws/Access.lean ====
section
/-! SUPPORT. What the checked accesses of the command buffer can do: they succeed exactly inside the bound, and then read or write
the swizzled bytes and nothing else. -/

namespace Sys2Proof.Machine

theorem bufRead_ok {c : Config} {len : Nat} {m : Memory} {i : Nat} (h : swz i < bound c len) :
    bufRead c len m i = .ok (Memory.read m (swz i)) := by
  rw [bufRead, if_neg (by omega)]

theorem bufRead_error {c : Config} {len : Nat} {m : Memory} {i : Nat} (h : bound c len ≤ swz i) :
    bufRead c len m i = .error (.bufferOutOfBounds (swz i)) := by
  rw [bufRead, if_pos h]

theorem bufWrite_ok {c : Config} {len : Nat} {m : Memory} {i : Nat} {v : Byte} (h : swz i < bound c len) :
    bufWrite c len m i v = .ok (Memory.write m (swz i) v) := by
  rw [bufWrite, if_neg (by omega)]

theorem bufWrite_error {c : Config} {len : Nat} {m : Memory} {i : Nat} {v : Byte} (h : bound c len ≤ swz i) :
    bufWrite c len m i v = .error (.bufferOutOfBounds (swz i)) := by
  rw [bufWrite, if_pos h]

/-- A run of writes inside the bound: it writes exactly the swizzled bytes. -/
theorem bufWriteFrom_ok {c : Config} {len : Nat} {m : Memory} (hm : Memory.wf m = true) {i : Nat} {vs : List Byte}
    (h : ∀ k, k < vs.length → swz (i + k) < bound c len) :
    ∃ m', bufWriteFrom c len m i vs = .ok m' ∧ Memory.wf m' = true ∧
      (∀ k (hk : k < vs.length), Memory.read m' (swz (i + k)) = vs[k]) ∧
      ∀ a, (∀ k, k < vs.length → a ≠ swz (i + k)) → Memory.read m' a = Memory.read m a := by
  induction vs generalizing m i with
  | nil => exact ⟨m, rfl, hm, fun k hk => absurd hk (Nat.not_lt_zero k), fun _ _ => rfl⟩
  | cons v vs ih =>
    have h0 : swz i < bound c len := h 0 (by simp)
    obtain ⟨m', heq, hwf, hin, hout⟩ := ih (Memory.write_wf hm (swz i) v) (i := i + 1) (fun k hk => by
      have := h (k + 1) (by simpa using hk)
      rwa [show i + 1 + k = i + (k + 1) by omega])
    refine ⟨m', ?_, hwf, ?_, ?_⟩
    · rw [bufWriteFrom, bufWrite_ok h0]
      exact heq
    · intro k hk
      cases k with
      | zero =>
        rw [Nat.add_zero, hout _ (fun k _ he => by have := swz_inj he; omega), Memory.read_write hm, if_pos rfl]
        rfl
      | succ k =>
        rw [show i + (k + 1) = i + 1 + k by omega, hin k (by simpa using hk)]
        rfl
    · intro a ha
      rw [hout a (fun k hk => by
          have := ha (k + 1) (by simpa using hk)
          rwa [show i + 1 + k = i + (k + 1) by omega]),
        Memory.read_write hm, if_neg (by simpa using ha 0 (by simp))]

/-- A run of writes that reaches the bound: the first index outside it is the fault's. -/
theorem bufWriteFrom_error {c : Config} {len : Nat} {m : Memory} {i : Nat} {vs : List Byte} {n : Nat}
    (hn : n < vs.length) (hin : ∀ k, k < n → swz (i + k) < bound c len) (hout : bound c len ≤ swz (i + n)) :
    bufWriteFrom c len m i vs = .error (.bufferOutOfBounds (swz (i + n))) := by
  induction vs generalizing m i n with
  | nil => exact absurd hn (Nat.not_lt_zero n)
  | cons v vs ih =>
    cases n with
    | zero => rw [bufWriteFrom, bufWrite_error (by simpa using hout)]; rfl
    | succ n =>
      rw [bufWriteFrom, bufWrite_ok (by simpa using hin 0 (by omega))]
      have := ih (m := Memory.write m (swz i) v) (i := i + 1) (n := n) (by simpa using hn)
        (fun k hk => by rw [show i + 1 + k = i + (k + 1) by omega]; exact hin (k + 1) (by omega))
        (by rw [show i + 1 + n = i + (n + 1) by omega]; exact hout)
      rw [show i + (n + 1) = i + 1 + n by omega]
      exact this

/-- What a run of writes keeps, whatever the configuration: the canonical form, and every listed index is inside the bound or was
listed before. Its only failure is an index at or above the bound. -/
theorem bufWriteFrom_cases (c : Config) (len : Nat) (m : Memory) (i : Nat) (vs : List Byte) :
    (∃ m', bufWriteFrom c len m i vs = .ok m' ∧ (Memory.wf m = true → Memory.wf m' = true) ∧
      ∀ cell ∈ m', cell.1 < bound c len ∨ cell ∈ m) ∨
    ∃ k, k < vs.length ∧ bound c len ≤ swz (i + k) ∧
      bufWriteFrom c len m i vs = .error (.bufferOutOfBounds (swz (i + k))) := by
  induction vs generalizing m i with
  | nil => exact .inl ⟨m, rfl, id, fun _ h => .inr h⟩
  | cons v vs ih =>
    by_cases h0 : swz i < bound c len
    · rcases ih (Memory.write m (swz i) v) (i + 1) with ⟨m', heq, hwf, hin⟩ | ⟨k, hk, hb, heq⟩
      · refine .inl ⟨m', ?_, fun h => hwf (Memory.write_wf h _ _), fun cell hc => ?_⟩
        · rw [bufWriteFrom, bufWrite_ok h0]
          exact heq
        · rcases hin cell hc with h | h
          · exact .inl h
          · rcases Memory.mem_write h with h | h
            · exact .inl (h ▸ h0)
            · exact .inr h
      · refine .inr ⟨k + 1, by simpa using hk, ?_, ?_⟩
        · rwa [show i + (k + 1) = i + 1 + k by omega]
        · rw [bufWriteFrom, bufWrite_ok h0, show i + (k + 1) = i + 1 + k by omega]
          exact heq
    · refine .inr ⟨0, by simp, by simpa using h0, ?_⟩
      rw [bufWriteFrom, bufWrite_error (by omega)]
      rfl

/-- A run of reads inside the bound: the swizzled bytes, in order. -/
theorem bufReadFrom_ok {c : Config} {len : Nat} {m : Memory} {i n : Nat}
    (h : ∀ k, k < n → swz (i + k) < bound c len) :
    bufReadFrom c len m i n = .ok ((List.range' i n).map (fun k => Memory.read m (swz k))) := by
  induction n generalizing i with
  | zero => rfl
  | succ n ih =>
    rw [bufReadFrom, bufRead_ok (by simpa using h 0 (by omega)), ih (fun k hk => by
      rw [show i + 1 + k = i + (k + 1) by omega]; exact h (k + 1) (by omega))]
    rfl

/-- A run of reads either gives bytes or stops at an index at or above the bound. -/
theorem bufReadFrom_cases (c : Config) (len : Nat) (m : Memory) (i n : Nat) :
    (∃ bs, bufReadFrom c len m i n = .ok bs) ∨
    ∃ k, k < n ∧ bound c len ≤ swz (i + k) ∧
      bufReadFrom c len m i n = .error (.bufferOutOfBounds (swz (i + k))) := by
  induction n generalizing i with
  | zero => exact .inl ⟨[], rfl⟩
  | succ n ih =>
    by_cases h0 : swz i < bound c len
    · rcases ih (i + 1) with ⟨bs, heq⟩ | ⟨k, hk, hb, heq⟩
      · refine .inl ⟨Memory.read m (swz i) :: bs, ?_⟩
        rw [bufReadFrom, bufRead_ok h0, heq]
      · refine .inr ⟨k + 1, by omega, ?_, ?_⟩
        · rwa [show i + (k + 1) = i + 1 + k by omega]
        · rw [bufReadFrom, bufRead_ok h0, heq, show i + (k + 1) = i + 1 + k by omega]
    · refine .inr ⟨0, by omega, by simpa using h0, ?_⟩
      rw [bufReadFrom, bufRead_error (by omega)]
      rfl

/-- Under a configuration that passes every check, the bound of a legal call is a multiple of four inside the capacity and takes in
the call's own bytes. -/
theorem bound_ok {c : Config} (hc : configCheck c = none) {len : Nat} (hl : len ≤ c.bufCap) :
    bound c len % 4 = 0 ∧ bound c len ≤ c.bufCap ∧ len ≤ bound c len := by
  have hcap : c.bufCap % 4 = 0 := by
    simp only [configCheck] at hc
    split at hc
    · cases hc
    · split at hc
      · cases hc
      · split at hc
        · cases hc
        · omega
  unfold bound
  split
  · exact ⟨hcap, Nat.le_refl _, hl⟩
  · exact ⟨roundup4_mod len, roundup4_le hcap hl, le_roundup4 len⟩

end Sys2Proof.Machine
end

