-- ==== Sys2Proof/Laws/Devices.lean ====
section
/-! SUPPORT. The laws of the device instances: finding one, putting one on a port, marking one. -/

namespace Sys2Proof.Machine

theorem findDevice_some {port : Nat} {ds : List Device} {d : Device} (h : findDevice port ds = some d) :
    d.port = port ∧ d ∈ ds := by
  unfold findDevice at h
  exact ⟨by simpa using List.find?_some h, List.mem_of_find?_eq_some h⟩

/-- Putting an instance on its port: it is found there, and every other port is as before. -/
theorem findDevice_insert (q : Nat) (d : Device) (ds : List Device) :
    findDevice q (insertDevice d ds) = if q = d.port then some d else findDevice q ds := by
  unfold findDevice
  induction ds with
  | nil =>
    by_cases hq : q = d.port
    · simp [insertDevice, hq]
    · simp [insertDevice, hq, Ne.symm hq]
  | cons e rest ih =>
    rw [insertDevice]
    split
    · rename_i hlt
      rw [List.find?_cons, List.find?_cons, ih]
      by_cases he : e.port = q
      · have hq : q ≠ d.port := by omega
        simp [he, hq]
      · have he' : (e.port == q) = false := by simpa using he
        simp only [he']
    · split
      · rename_i _ heq
        by_cases hq : q = d.port
        · simp [hq]
        · have he : e.port ≠ q := by omega
          simp [hq, he, Ne.symm hq]
      · by_cases hq : q = d.port
        · simp [hq]
        · simp [List.find?_cons, hq, Ne.symm hq]

theorem mem_insertDevice {d e : Device} {ds : List Device} (h : e ∈ insertDevice d ds) : e = d ∨ e ∈ ds := by
  induction ds with
  | nil => simpa [insertDevice] using h
  | cons x rest ih =>
    rw [insertDevice] at h
    split at h
    · rcases List.mem_cons.1 h with h | h
      · exact .inr (h ▸ List.mem_cons_self)
      · exact (ih h).imp_right (List.mem_cons_of_mem _)
    · split at h
      · exact (List.mem_cons.1 h).imp_right (List.mem_cons_of_mem _)
      · exact List.mem_cons.1 h

/-- An instance is lost only to the one put on its port, and then it is the one that was found there. -/
theorem mem_insertDevice_of_mem {d e : Device} {ds : List Device} (h : e ∈ ds) :
    e ∈ insertDevice d ds ∨ findDevice d.port ds = some e := by
  unfold findDevice
  induction ds with
  | nil => cases h
  | cons x rest ih =>
    rw [insertDevice]
    split
    · rename_i hlt
      rcases List.mem_cons.1 h with h | h
      · exact .inl (h ▸ List.mem_cons_self)
      · rcases ih h with ih | ih
        · exact .inl (List.mem_cons_of_mem _ ih)
        · refine .inr ?_
          rw [List.find?_cons_of_neg (by simp; omega)]
          exact ih
    · split
      · rename_i _ heq
        rcases List.mem_cons.1 h with h | h
        · exact .inr (by simp [h, heq])
        · exact .inl (List.mem_cons_of_mem _ h)
      · exact .inl (List.mem_cons_of_mem _ h)

theorem portsRise_mono {lo lo' : Nat} {ds : List Device} (h : portsRise lo ds) (hle : lo' ≤ lo) : portsRise lo' ds := by
  cases ds with
  | nil => trivial
  | cons d rest => exact ⟨Nat.le_trans hle h.1, h.2⟩

theorem portsRise_insert {lo : Nat} {d : Device} {ds : List Device} (h : portsRise lo ds) (hd : lo ≤ d.port) :
    portsRise lo (insertDevice d ds) := by
  induction ds generalizing lo with
  | nil => exact ⟨hd, trivial⟩
  | cons e rest ih =>
    rw [insertDevice]
    split
    · rename_i hlt
      exact ⟨h.1, ih h.2 hlt⟩
    · split
      · rename_i _ heq
        exact ⟨hd, heq ▸ h.2⟩
      · rename_i hlt hne
        exact ⟨hd, ⟨by omega, h.2⟩⟩

@[simp] theorem Device.mark_port (port : Nat) (r : FaultReason) (d : Device) : (d.mark port r).port = d.port := by
  unfold Device.mark; split <;> rfl
@[simp] theorem Device.mark_variant (port : Nat) (r : FaultReason) (d : Device) : (d.mark port r).variant = d.variant := by
  unfold Device.mark; split <;> rfl
@[simp] theorem Device.mark_origin (port : Nat) (r : FaultReason) (d : Device) : (d.mark port r).origin = d.origin := by
  unfold Device.mark; split <;> rfl
@[simp] theorem Device.mark_traceEnabled (port : Nat) (r : FaultReason) (d : Device) :
    (d.mark port r).traceEnabled = d.traceEnabled := by
  unfold Device.mark; split <;> rfl
@[simp] theorem Device.mark_faulted (port : Nat) (r : FaultReason) (d : Device) :
    (d.mark port r).faulted = if d.port = port then some r else d.faulted := by
  unfold Device.mark; split <;> rfl

theorem portsRise_mark {lo : Nat} (port : Nat) (r : FaultReason) {ds : List Device} (h : portsRise lo ds) :
    portsRise lo (markFaulted port r ds) := by
  induction ds generalizing lo with
  | nil => trivial
  | cons e rest ih =>
    refine ⟨?_, ?_⟩
    · simpa using h.1
    · simpa [markFaulted] using ih h.2

/-- Marking a port: its instance carries the mark, and every other port's instance is as before. -/
theorem findDevice_mark (q port : Nat) (r : FaultReason) (ds : List Device) :
    findDevice q (markFaulted port r ds) = (findDevice q ds).map (Device.mark port r) := by
  unfold findDevice markFaulted
  rw [List.find?_map]
  congr 1
  simp

/-- Another port's instance is not marked. -/
theorem findDevice_mark_of_ne {q port : Nat} (h : q ≠ port) (r : FaultReason) (ds : List Device) :
    findDevice q (markFaulted port r ds) = findDevice q ds := by
  rw [findDevice_mark]
  cases hf : findDevice q ds with
  | none => rfl
  | some d =>
    have : d.port ≠ port := (findDevice_some hf).1 ▸ h
    simp [Device.mark, this]

theorem mem_markFaulted {port : Nat} {r : FaultReason} {ds : List Device} {e : Device} :
    e ∈ markFaulted port r ds ↔ ∃ d ∈ ds, d.mark port r = e := by
  unfold markFaulted
  exact List.mem_map

end Sys2Proof.Machine
end

