-- ==== Sys2Proof/Laws/State.lean ====
section
/-! SUPPORT. One lemma per field per update of the state, so that no proof unfolds a record update. -/

namespace Sys2Proof.Machine

variable (s : State)

/-! ## openCall -/

@[simp] theorem State.openCall_cfg (port : Nat) (f : Frame) : (s.openCall port f).cfg = s.cfg := rfl
@[simp] theorem State.openCall_devices (port : Nat) (f : Frame) : (s.openCall port f).devices = s.devices := rfl
@[simp] theorem State.openCall_retired (port : Nat) (f : Frame) : (s.openCall port f).retired = s.retired := rfl
@[simp] theorem State.openCall_buf (port : Nat) (f : Frame) : (s.openCall port f).buf = s.buf := rfl
@[simp] theorem State.openCall_host (port : Nat) (f : Frame) : (s.openCall port f).host = s.host := rfl
@[simp] theorem State.openCall_samples (port : Nat) (f : Frame) : (s.openCall port f).samples = s.samples := rfl
@[simp] theorem State.openCall_avails (port : Nat) (f : Frame) : (s.openCall port f).avails = s.avails := rfl
@[simp] theorem State.openCall_draws (port : Nat) (f : Frame) : (s.openCall port f).draws = s.draws := rfl
@[simp] theorem State.openCall_call (port : Nat) (f : Frame) : (s.openCall port f).call = some { port := port, frame := f, events := [] } := rfl
@[simp] theorem State.openCall_events (port : Nat) (f : Frame) : (s.openCall port f).events = s.events := rfl
@[simp] theorem State.openCall_result (port : Nat) (f : Frame) : (s.openCall port f).result = s.result := rfl
@[simp] theorem State.openCall_polling (port : Nat) (f : Frame) : (s.openCall port f).polling = s.polling := rfl

/-! ## setCall -/

@[simp] theorem State.setCall_cfg (c : OpenCall) : (s.setCall c).cfg = s.cfg := rfl
@[simp] theorem State.setCall_devices (c : OpenCall) : (s.setCall c).devices = s.devices := rfl
@[simp] theorem State.setCall_retired (c : OpenCall) : (s.setCall c).retired = s.retired := rfl
@[simp] theorem State.setCall_buf (c : OpenCall) : (s.setCall c).buf = s.buf := rfl
@[simp] theorem State.setCall_host (c : OpenCall) : (s.setCall c).host = s.host := rfl
@[simp] theorem State.setCall_samples (c : OpenCall) : (s.setCall c).samples = s.samples := rfl
@[simp] theorem State.setCall_avails (c : OpenCall) : (s.setCall c).avails = s.avails := rfl
@[simp] theorem State.setCall_draws (c : OpenCall) : (s.setCall c).draws = s.draws := rfl
@[simp] theorem State.setCall_call (c : OpenCall) : (s.setCall c).call = some c := rfl
@[simp] theorem State.setCall_events (c : OpenCall) : (s.setCall c).events = s.events := rfl
@[simp] theorem State.setCall_result (c : OpenCall) : (s.setCall c).result = s.result := rfl
@[simp] theorem State.setCall_polling (c : OpenCall) : (s.setCall c).polling = s.polling := rfl

/-! ## setBuf -/

@[simp] theorem State.setBuf_cfg (m : Memory) : (s.setBuf m).cfg = s.cfg := rfl
@[simp] theorem State.setBuf_devices (m : Memory) : (s.setBuf m).devices = s.devices := rfl
@[simp] theorem State.setBuf_retired (m : Memory) : (s.setBuf m).retired = s.retired := rfl
@[simp] theorem State.setBuf_buf (m : Memory) : (s.setBuf m).buf = m := rfl
@[simp] theorem State.setBuf_host (m : Memory) : (s.setBuf m).host = s.host := rfl
@[simp] theorem State.setBuf_samples (m : Memory) : (s.setBuf m).samples = s.samples := rfl
@[simp] theorem State.setBuf_avails (m : Memory) : (s.setBuf m).avails = s.avails := rfl
@[simp] theorem State.setBuf_draws (m : Memory) : (s.setBuf m).draws = s.draws := rfl
@[simp] theorem State.setBuf_call (m : Memory) : (s.setBuf m).call = s.call := rfl
@[simp] theorem State.setBuf_events (m : Memory) : (s.setBuf m).events = s.events := rfl
@[simp] theorem State.setBuf_result (m : Memory) : (s.setBuf m).result = s.result := rfl
@[simp] theorem State.setBuf_polling (m : Memory) : (s.setBuf m).polling = s.polling := rfl

/-! ## setPolling -/

@[simp] theorem State.setPolling_cfg (p : Polling) : (s.setPolling p).cfg = s.cfg := rfl
@[simp] theorem State.setPolling_devices (p : Polling) : (s.setPolling p).devices = s.devices := rfl
@[simp] theorem State.setPolling_retired (p : Polling) : (s.setPolling p).retired = s.retired := rfl
@[simp] theorem State.setPolling_buf (p : Polling) : (s.setPolling p).buf = s.buf := rfl
@[simp] theorem State.setPolling_host (p : Polling) : (s.setPolling p).host = s.host := rfl
@[simp] theorem State.setPolling_samples (p : Polling) : (s.setPolling p).samples = s.samples := rfl
@[simp] theorem State.setPolling_avails (p : Polling) : (s.setPolling p).avails = s.avails := rfl
@[simp] theorem State.setPolling_draws (p : Polling) : (s.setPolling p).draws = s.draws := rfl
@[simp] theorem State.setPolling_call (p : Polling) : (s.setPolling p).call = s.call := rfl
@[simp] theorem State.setPolling_events (p : Polling) : (s.setPolling p).events = s.events := rfl
@[simp] theorem State.setPolling_result (p : Polling) : (s.setPolling p).result = s.result := rfl
@[simp] theorem State.setPolling_polling (p : Polling) : (s.setPolling p).polling = some p := rfl

/-! ## setHost -/

@[simp] theorem State.setHost_cfg (rest : List HostAct) : (s.setHost rest).cfg = s.cfg := rfl
@[simp] theorem State.setHost_devices (rest : List HostAct) : (s.setHost rest).devices = s.devices := rfl
@[simp] theorem State.setHost_retired (rest : List HostAct) : (s.setHost rest).retired = s.retired := rfl
@[simp] theorem State.setHost_buf (rest : List HostAct) : (s.setHost rest).buf = s.buf := rfl
@[simp] theorem State.setHost_host (rest : List HostAct) : (s.setHost rest).host = rest := rfl
@[simp] theorem State.setHost_samples (rest : List HostAct) : (s.setHost rest).samples = s.samples := rfl
@[simp] theorem State.setHost_avails (rest : List HostAct) : (s.setHost rest).avails = s.avails := rfl
@[simp] theorem State.setHost_draws (rest : List HostAct) : (s.setHost rest).draws = s.draws := rfl
@[simp] theorem State.setHost_call (rest : List HostAct) : (s.setHost rest).call = s.call := rfl
@[simp] theorem State.setHost_events (rest : List HostAct) : (s.setHost rest).events = s.events := rfl
@[simp] theorem State.setHost_result (rest : List HostAct) : (s.setHost rest).result = s.result := rfl
@[simp] theorem State.setHost_polling (rest : List HostAct) : (s.setHost rest).polling = s.polling := rfl

/-! ## closeCall -/

@[simp] theorem State.closeCall_cfg (c : OpenCall) : (s.closeCall c).cfg = s.cfg := rfl
@[simp] theorem State.closeCall_devices (c : OpenCall) : (s.closeCall c).devices = s.devices := rfl
@[simp] theorem State.closeCall_retired (c : OpenCall) : (s.closeCall c).retired = s.retired := rfl
@[simp] theorem State.closeCall_buf (c : OpenCall) : (s.closeCall c).buf = s.buf := rfl
@[simp] theorem State.closeCall_host (c : OpenCall) : (s.closeCall c).host = s.host := rfl
@[simp] theorem State.closeCall_samples (c : OpenCall) : (s.closeCall c).samples = s.samples := rfl
@[simp] theorem State.closeCall_avails (c : OpenCall) : (s.closeCall c).avails = s.avails := rfl
@[simp] theorem State.closeCall_draws (c : OpenCall) : (s.closeCall c).draws = s.draws := rfl
@[simp] theorem State.closeCall_call (c : OpenCall) : (s.closeCall c).call = none := rfl
@[simp] theorem State.closeCall_events (c : OpenCall) : (s.closeCall c).events = s.events ++ c.events := rfl
@[simp] theorem State.closeCall_result (c : OpenCall) : (s.closeCall c).result = some c.result := rfl
@[simp] theorem State.closeCall_polling (c : OpenCall) : (s.closeCall c).polling = s.polling := rfl

/-! ## raiseFault -/

@[simp] theorem State.raiseFault_cfg (target : Option Nat) (r : FaultReason) : (s.raiseFault target r).cfg = s.cfg := rfl
@[simp] theorem State.raiseFault_retired (target : Option Nat) (r : FaultReason) : (s.raiseFault target r).retired = s.retired := rfl
@[simp] theorem State.raiseFault_buf (target : Option Nat) (r : FaultReason) : (s.raiseFault target r).buf = s.buf := rfl
@[simp] theorem State.raiseFault_host (target : Option Nat) (r : FaultReason) : (s.raiseFault target r).host = s.host := rfl
@[simp] theorem State.raiseFault_samples (target : Option Nat) (r : FaultReason) : (s.raiseFault target r).samples = s.samples := rfl
@[simp] theorem State.raiseFault_avails (target : Option Nat) (r : FaultReason) : (s.raiseFault target r).avails = s.avails := rfl
@[simp] theorem State.raiseFault_draws (target : Option Nat) (r : FaultReason) : (s.raiseFault target r).draws = s.draws := rfl
@[simp] theorem State.raiseFault_call (target : Option Nat) (r : FaultReason) : (s.raiseFault target r).call = none := rfl
@[simp] theorem State.raiseFault_events (target : Option Nat) (r : FaultReason) : (s.raiseFault target r).events = s.events := rfl
@[simp] theorem State.raiseFault_result (target : Option Nat) (r : FaultReason) : (s.raiseFault target r).result = some (.faulted r) := rfl
@[simp] theorem State.raiseFault_polling (target : Option Nat) (r : FaultReason) : (s.raiseFault target r).polling = s.polling := rfl

/-! ## putDevice -/

@[simp] theorem State.putDevice_cfg (d : Device) : (s.putDevice d).cfg = s.cfg := rfl
@[simp] theorem State.putDevice_devices (d : Device) : (s.putDevice d).devices = insertDevice d s.devices := rfl
@[simp] theorem State.putDevice_buf (d : Device) : (s.putDevice d).buf = s.buf := rfl
@[simp] theorem State.putDevice_host (d : Device) : (s.putDevice d).host = s.host := rfl
@[simp] theorem State.putDevice_samples (d : Device) : (s.putDevice d).samples = s.samples := rfl
@[simp] theorem State.putDevice_avails (d : Device) : (s.putDevice d).avails = s.avails := rfl
@[simp] theorem State.putDevice_draws (d : Device) : (s.putDevice d).draws = s.draws := rfl
@[simp] theorem State.putDevice_call (d : Device) : (s.putDevice d).call = s.call := rfl
@[simp] theorem State.putDevice_events (d : Device) : (s.putDevice d).events = s.events := rfl
@[simp] theorem State.putDevice_result (d : Device) : (s.putDevice d).result = some (.constructed d.port) := rfl
@[simp] theorem State.putDevice_polling (d : Device) : (s.putDevice d).polling = s.polling := rfl

/-! ## drawSample -/

@[simp] theorem State.drawSample_cfg : (s.drawSample).cfg = s.cfg := by
  unfold State.drawSample; split <;> rfl
@[simp] theorem State.drawSample_devices : (s.drawSample).devices = s.devices := by
  unfold State.drawSample; split <;> rfl
@[simp] theorem State.drawSample_retired : (s.drawSample).retired = s.retired := by
  unfold State.drawSample; split <;> rfl
@[simp] theorem State.drawSample_buf : (s.drawSample).buf = s.buf := by
  unfold State.drawSample; split <;> rfl
@[simp] theorem State.drawSample_host : (s.drawSample).host = s.host := by
  unfold State.drawSample; split <;> rfl
@[simp] theorem State.drawSample_samples : (s.drawSample).samples = s.samples.tail := by
  unfold State.drawSample; split <;> simp_all
@[simp] theorem State.drawSample_avails : (s.drawSample).avails = s.avails := by
  unfold State.drawSample; split <;> rfl
@[simp] theorem State.drawSample_call : (s.drawSample).call = s.call := by
  unfold State.drawSample; split <;> rfl
@[simp] theorem State.drawSample_events : (s.drawSample).events = s.events := by
  unfold State.drawSample; split <;> rfl
@[simp] theorem State.drawSample_result : (s.drawSample).result = s.result := by
  unfold State.drawSample; split <;> rfl
@[simp] theorem State.drawSample_polling : (s.drawSample).polling = s.polling := by
  unfold State.drawSample; split <;> rfl

/-! ## drawAvail -/

@[simp] theorem State.drawAvail_cfg : (s.drawAvail).cfg = s.cfg := by
  unfold State.drawAvail; split <;> rfl
@[simp] theorem State.drawAvail_devices : (s.drawAvail).devices = s.devices := by
  unfold State.drawAvail; split <;> rfl
@[simp] theorem State.drawAvail_retired : (s.drawAvail).retired = s.retired := by
  unfold State.drawAvail; split <;> rfl
@[simp] theorem State.drawAvail_buf : (s.drawAvail).buf = s.buf := by
  unfold State.drawAvail; split <;> rfl
@[simp] theorem State.drawAvail_host : (s.drawAvail).host = s.host := by
  unfold State.drawAvail; split <;> rfl
@[simp] theorem State.drawAvail_samples : (s.drawAvail).samples = s.samples := by
  unfold State.drawAvail; split <;> rfl
@[simp] theorem State.drawAvail_avails : (s.drawAvail).avails = s.avails.tail := by
  unfold State.drawAvail; split <;> simp_all
@[simp] theorem State.drawAvail_call : (s.drawAvail).call = s.call := by
  unfold State.drawAvail; split <;> rfl
@[simp] theorem State.drawAvail_events : (s.drawAvail).events = s.events := by
  unfold State.drawAvail; split <;> rfl
@[simp] theorem State.drawAvail_result : (s.drawAvail).result = s.result := by
  unfold State.drawAvail; split <;> rfl
@[simp] theorem State.drawAvail_polling : (s.drawAvail).polling = s.polling := by
  unfold State.drawAvail; split <;> rfl

@[simp] theorem State.raiseFault_devices_none (r : FaultReason) : (s.raiseFault none r).devices = s.devices := rfl
@[simp] theorem State.raiseFault_devices_some (port : Nat) (r : FaultReason) :
    (s.raiseFault (some port) r).devices = markFaulted port r s.devices := rfl

/-- An instance is retired only when another is put on its port. -/
theorem State.putDevice_retired (d : Device) :
    (s.putDevice d).retired = match findDevice d.port s.devices with
      | none => s.retired
      | some old => s.retired ++ [old] := rfl

/-! ## The call in progress -/

@[simp] theorem OpenCall.at_port (c : OpenCall) (len pos : Nat) : (c.at len pos).port = c.port := rfl
@[simp] theorem OpenCall.at_frame (c : OpenCall) (len pos : Nat) : (c.at len pos).frame = .runBuffer len pos := rfl
@[simp] theorem OpenCall.at_events (c : OpenCall) (len pos : Nat) : (c.at len pos).events = c.events := rfl
@[simp] theorem OpenCall.at_result (c : OpenCall) (len pos : Nat) : (c.at len pos).result = .consumed pos := rfl
@[simp] theorem OpenCall.emit_port (c : OpenCall) (es : List Event) : (c.emit es).port = c.port := rfl
@[simp] theorem OpenCall.emit_frame (c : OpenCall) (es : List Event) : (c.emit es).frame = c.frame := rfl
@[simp] theorem OpenCall.emit_events (c : OpenCall) (es : List Event) : (c.emit es).events = c.events ++ es := rfl

end Sys2Proof.Machine
end

