-- ==== Sys2Proof/Laws/Calls.lean ====
section
/-! SUPPORT. What the shared operations of a call can do, once each: which device runs, how a command inside a call ends, and how a
whole call ends. The meanings are never unfolded again. -/

namespace Sys2Proof.Machine

open Sys2Proof

/-! ## Which device runs -/

theorem liveDevice_ok {s : State} {port : Nat} {d : Device} :
    s.liveDevice port = .ok d ↔ findDevice port s.devices = some d ∧ d.faulted = none := by
  unfold State.liveDevice
  split
  · rename_i h
    simp [h]
  · rename_i e h
    rw [h, Option.some.injEq]
    split
    · rename_i r hf
      constructor
      · exact fun h => nomatch h
      · rintro ⟨rfl, hn⟩
        rw [hf] at hn
        cases hn
    · rename_i hf
      rw [Except.ok.injEq]
      constructor
      · rintro rfl
        exact ⟨rfl, hf⟩
      · exact fun h => h.1

theorem deviceOf_ok {s : State} {v : Variant} {port : Nat} {d : Device} :
    s.deviceOf v port = .ok d ↔ findDevice port s.devices = some d ∧ d.variant = v ∧ d.faulted = none := by
  unfold State.deviceOf
  cases h : s.liveDevice port with
  | error f =>
    simp only [reduceCtorEq, false_iff, not_and]
    intro hf hv hn
    rw [liveDevice_ok.2 ⟨hf, hn⟩] at h
    cases h
  | ok e =>
    have he := liveDevice_ok.1 h
    dsimp only
    split
    · rename_i hv
      rw [Except.ok.injEq]
      constructor
      · rintro rfl
        exact ⟨he.1, hv, he.2⟩
      · rintro ⟨hd, -, -⟩
        exact Option.some.inj (he.1.symm.trans hd)
    · rename_i hv
      simp only [reduceCtorEq, false_iff, not_and]
      intro hd hv'
      exact absurd (Option.some.inj (he.1.symm.trans hd) ▸ hv') hv

/-- A call is received exactly when no call is in progress and the port holds a device of the variant with no fault mark. -/
theorem receiver_ok {s : State} {v : Variant} {port : Nat} {d : Device} :
    s.receiver v port = .ok d ↔ s.idleOn v port d := by
  unfold State.receiver State.idleOn
  cases h : s.call with
  | some c => simp
  | none => simp [deviceOf_ok]

/-- A buffer command runs in a `RunBuffer` call on a standard controller, and only there. -/
theorem onBufferCommand_eq {s : State} {c : OpenCall} {len pos : Nat} {d : Device} (h : s.inBufferCall c len pos d)
    (hv : d.variant = .standardController) (k : Device → OpenCall → Nat → Answer) :
    s.onBufferCommand k = k d c len := by
  obtain ⟨hc, hf, hd, hn⟩ := h
  have hb : s.bufferCall = .ok (c, len, pos) := by simp [State.bufferCall, hc, hf]
  have ho : s.deviceOf .standardController c.port = .ok d := deviceOf_ok.2 ⟨hd, hv, hn⟩
  simp only [State.onBufferCommand, hb, ho]

/-- If a buffer command answers a next state, it ran in a `RunBuffer` call on a standard controller. -/
theorem onBufferCommand_next {s t : State} {k : Device → OpenCall → Nat → Answer} (h : s.onBufferCommand k = .next t) :
    ∃ c len pos d, s.inBufferCall c len pos d ∧ d.variant = .standardController ∧ k d c len = .next t := by
  unfold State.onBufferCommand at h
  split at h
  · cases h
  · rename_i c len pos hb
    split at h
    · cases h
    · rename_i d hd
      refine ⟨c, len, pos, d, ?_, (deviceOf_ok.1 hd).2.1, h⟩
      unfold State.bufferCall at hb
      split at hb
      · cases hb
      · rename_i c' hc
        split at hb
        · rename_i hf
          cases hb
          exact ⟨hc, hf, (deviceOf_ok.1 hd).1, (deviceOf_ok.1 hd).2.2⟩
        · cases hb
        · cases hb

/-- A direct command runs in a `SendCommand` call on a standard controller, and only there. -/
theorem onDirectCommand_eq {s : State} {c : OpenCall} {d : Device} (h : s.inDirectCall c d) (k : OpenCall → Answer) :
    s.onDirectCommand k = k c := by
  obtain ⟨hc, hf, hd, hv, hn⟩ := h
  have hb : s.directCall = .ok c := by simp [State.directCall, hc, hf]
  have ho : s.deviceOf .standardController c.port = .ok d := deviceOf_ok.2 ⟨hd, hv, hn⟩
  simp only [State.onDirectCommand, hb, ho]

theorem onDirectCommand_next {s t : State} {k : OpenCall → Answer} (h : s.onDirectCommand k = .next t) :
    ∃ c d, s.inDirectCall c d ∧ k c = .next t := by
  unfold State.onDirectCommand at h
  split at h
  · cases h
  · rename_i c hb
    split at h
    · cases h
    · rename_i d hd
      refine ⟨c, d, ?_, h⟩
      unfold State.directCall at hb
      split at hb
      · cases hb
      · rename_i c' hc
        split at hb
        · cases hb
        · cases hb
        · rename_i hf
          cases hb
          exact ⟨hc, hf, deviceOf_ok.1 hd⟩

/-! ## Raising a fault inside a call -/

/-- The call in progress leaves no trace in a faulted call. -/
@[simp] theorem raiseFault_setCall (s : State) (c : OpenCall) (target : Option Nat) (r : FaultReason) :
    (s.setCall c).raiseFault target r = s.raiseFault target r := rfl

@[simp] theorem setCall_setCall (s : State) (c c' : OpenCall) : (s.setCall c).setCall c' = s.setCall c' := rfl

@[simp] theorem closeCall_setCall (s : State) (c c' : OpenCall) : (s.setCall c).closeCall c' = s.closeCall c' := rfl

/-- `whileOpen` after a state with a call in progress. -/
theorem whileOpen_open {t : State} {c : OpenCall} (h : t.call = some c) (k : State → OpenCall → Answer) :
    whileOpen (.next t) k = k t c := by
  simp only [whileOpen, h]

/-- `whileOpen` after a raised fault. -/
theorem whileOpen_closed {t : State} (h : t.call = none) (k : State → OpenCall → Answer) :
    whileOpen (.next t) k = .next t := by
  simp only [whileOpen, h]

/-! ## The trace hook and the entry to RunBuffer -/

theorem logicalBytes_eq (m : Memory) (n : Nat) :
    logicalBytes m n = (List.range' 0 n).map (fun k => Memory.read m (swz k)) := by
  rw [logicalBytes, List.range_eq_range']

/-- The trace hook in a call whose bytes lie inside the bound: its events join the call's. -/
theorem execTraceHook_eq {s : State} {c : OpenCall} {len pos : Nat} {d : Device} (h : s.inBufferCall c len pos d)
    (hb : ∀ k, k < len → swz k < bound s.cfg len) :
    execTraceHook s = .next (s.setCall (c.emit (hookEvents d s.buf len))) := by
  obtain ⟨hc, hf, hd, hn⟩ := h
  have hbc : s.bufferCall = .ok (c, len, pos) := by simp [State.bufferCall, hc, hf]
  have hl : s.liveDevice c.port = .ok d := liveDevice_ok.2 ⟨hd, hn⟩
  have hr := bufReadFrom_ok (c := s.cfg) (len := len) (m := s.buf) (i := 0) (n := len) (by simpa using hb)
  have hp := (findDevice_some hd).1
  simp only [execTraceHook, hbc, hl]
  unfold hookEvents
  split
  · rw [hr, ← logicalBytes_eq, hp]
  · have : s.setCall (c.emit []) = s := by
      cases s
      simp only [State.setCall, OpenCall.emit, List.append_nil] at hc ⊢
      rw [hc]
    rw [this]

/-- The trace hook, whatever the bound: it emits trace lines into the call, or raises the fault of its first access outside the
bound. -/
theorem execTraceHook_cases {s : State} {c : OpenCall} {len pos : Nat} {d : Device} (h : s.inBufferCall c len pos d) :
    (∃ es, execTraceHook s = .next (s.setCall (c.emit es)) ∧ (∀ e ∈ es, e.isTraceClass = true) ∧
      (d.traceEnabled = false → es = [])) ∨
    ∃ k, k < len ∧ bound s.cfg len ≤ swz k ∧ d.traceEnabled = true ∧
      execTraceHook s = .next (s.raiseFault (some c.port) (.bufferOutOfBounds (swz k))) := by
  obtain ⟨hc, hf, hd, hn⟩ := h
  have hbc : s.bufferCall = .ok (c, len, pos) := by simp [State.bufferCall, hc, hf]
  have hl : s.liveDevice c.port = .ok d := liveDevice_ok.2 ⟨hd, hn⟩
  simp only [execTraceHook, hbc, hl]
  split
  · rename_i ht
    rcases bufReadFrom_cases s.cfg len s.buf 0 len with ⟨bs, hr⟩ | ⟨k, hk, hb, hr⟩
    · refine .inl ⟨(traceLines bs).map (Event.trace c.port), by rw [hr], fun e he => ?_, fun hf => ?_⟩
      · obtain ⟨l, -, rfl⟩ := List.mem_map.1 he
        rfl
      · rw [ht] at hf
        cases hf
    · exact .inr ⟨k, hk, by simpa using hb, ht, by rw [hr]; simp⟩
  · refine .inl ⟨[], ?_, by simp, fun _ => rfl⟩
    have : s.setCall (c.emit []) = s := by
      cases s
      simp only [State.setCall, OpenCall.emit, List.append_nil] at hc ⊢
      rw [hc]
    rw [this]

theorem inBufferCall_open {s : State} {v : Variant} {port : Nat} {d : Device} (h : s.idleOn v port d) (len pos : Nat)
    (es : List Event) :
    (s.setCall { port := port, frame := .runBuffer len pos, events := es }).inBufferCall
      { port := port, frame := .runBuffer len pos, events := es } len pos d :=
  ⟨rfl, rfl, h.2.1, h.2.2.2⟩

/-- The entry to `RunBuffer` of a legal call whose bytes lie inside the bound: the trace events, then the variant's own processing. -/
theorem enterRunBuffer_eq {s : State} {v : Variant} {port len : Nat} {d : Device} (h : s.idleOn v port d)
    (hl : len ≤ s.cfg.bufCap) (hb : ∀ k, k < len → swz k < bound s.cfg len) (body : State → OpenCall → Answer) :
    enterRunBuffer port len s body =
      body (s.setCall { port := port, frame := .runBuffer len 0, events := hookEvents d s.buf len })
        { port := port, frame := .runBuffer len 0, events := hookEvents d s.buf len } := by
  have hh := execTraceHook_eq (inBufferCall_open h len 0 []) (by simpa using hb)
  rw [enterRunBuffer, if_neg (by omega)]
  change whileOpen (execTraceHook (s.setCall _)) body = _
  rw [hh, whileOpen_open rfl]
  rfl

/-- The entry to `RunBuffer`: a fault is raised, or the variant's own processing runs after trace events only. -/
theorem enterRunBuffer_cases {s : State} {v : Variant} {port len : Nat} {d : Device} (h : s.idleOn v port d)
    (body : State → OpenCall → Answer) :
    (s.cfg.bufCap < len ∧ enterRunBuffer port len s body = .next (s.raiseFault (some port) (.lengthOutOfRange len))) ∨
    (∃ k, len ≤ s.cfg.bufCap ∧ k < len ∧ bound s.cfg len ≤ swz k ∧
      enterRunBuffer port len s body = .next (s.raiseFault (some port) (.bufferOutOfBounds (swz k)))) ∨
    ∃ es, len ≤ s.cfg.bufCap ∧ (∀ e ∈ es, e.isTraceClass = true) ∧ (d.traceEnabled = false → es = []) ∧
      enterRunBuffer port len s body =
        body (s.setCall { port := port, frame := .runBuffer len 0, events := es })
          { port := port, frame := .runBuffer len 0, events := es } := by
  by_cases hl : s.cfg.bufCap < len
  · exact .inl ⟨hl, by rw [enterRunBuffer, if_pos hl]⟩
  · refine .inr ?_
    rw [enterRunBuffer, if_neg hl]
    change (∃ k, _ ∧ _ ∧ _ ∧ whileOpen (execTraceHook (s.setCall _)) body = _) ∨
      ∃ es, _ ∧ _ ∧ _ ∧ whileOpen (execTraceHook (s.setCall _)) body = _
    rcases execTraceHook_cases (inBufferCall_open h len 0 []) with ⟨es, he, hes, hoff⟩ | ⟨k, hk, hb, -, he⟩
    · exact .inr ⟨es, by omega, hes, hoff, by rw [he, whileOpen_open rfl]; rfl⟩
    · exact .inl ⟨k, by omega, hk, hb, by rw [he, whileOpen_closed rfl]; rfl⟩

end Sys2Proof.Machine
end

