-- ==== Sys2Proof/Laws/Exec.lean ====
section
/-! SUPPORT. What an operation can do, once: how a command inside a call ends, and how a whole call of the host ends. Invariants and
frames are derived from these, not from the meanings. -/

namespace Sys2Proof.Machine

open Sys2Proof

/-- A command left the call in progress: it wrote `m` into the buffer, emitted `es` and set the cursor to `len`. -/
def commandDone (s : State) (c : OpenCall) (len : Nat) (m : Memory) (es : List Event) : State :=
  (s.setBuf m).setCall ((c.emit es).at len len)

/-- What a reply's writes keep: the canonical form, and no listed index outside the bound but those listed before. -/
def WritesInside (s : State) (len : Nat) (m : Memory) : Prop :=
  (s.buf.wf = true → m.wf = true) ∧ ∀ cell ∈ m, cell.1 < bound s.cfg len ∨ cell ∈ s.buf

/-- The one error-class event of a command, at most. -/
def atMostOneError (es : List Event) : Prop := (es.filter Event.isErrorClass).length ≤ 1

/-! The class of each kind of event, and the number of the two error kinds (60_exceptions.md rules R200 to R202). -/

@[simp] theorem trace_isErrorClass (p : Nat) (bs : List Byte) : (Event.trace p bs).isErrorClass = false := rfl
@[simp] theorem consoleSpecificIgnored_isErrorClass (p : Nat) (b : Byte) :
    (Event.consoleSpecificIgnored p b).isErrorClass = false := rfl
@[simp] theorem unrecognizedBufferCommand_isErrorClass (p : Nat) (b : Byte) :
    (Event.unrecognizedBufferCommand p b).isErrorClass = true := rfl
@[simp] theorem unrecognizedDirectCommand_isErrorClass (p : Nat) (w : Word) :
    (Event.unrecognizedDirectCommand p w).isErrorClass = true := rfl
@[simp] theorem inputSampled_isErrorClass (p : Nat) (x : InputSample) : (Event.inputSampled p x).isErrorClass = false := rfl
@[simp] theorem micButton_isErrorClass (p : Nat) (b : Bool) : (Event.micButton p b).isErrorClass = false := rfl
@[simp] theorem rumble_isErrorClass (p : Nat) (x y : Byte) : (Event.rumble p x y).isErrorClass = false := rfl
@[simp] theorem rumbleProbe_isErrorClass (p : Nat) (b : Bool) : (Event.rumbleProbe p b).isErrorClass = false := rfl

/-- The error-class events a buffer command emits. -/
def bufErrors (port : Nat) : BufCmd → List Event
  | .reset => []
  | .origin => []
  | .recalibrate => []
  | .consoleSpecific => []
  | .unknown cmd => [.unrecognizedBufferCommand port cmd]

/-- The error-class events a direct command emits. -/
def dirErrors (port : Nat) : DirCmd → List Event
  | .nop _ _ => []
  | .rumble _ _ => []
  | .unknown w => [.unrecognizedDirectCommand port w]

theorem atMostOneError_of_bufErrors {es : List Event} {port : Nat} {b : BufCmd}
    (h : es.filter Event.isErrorClass = bufErrors port b) : atMostOneError es := by
  rw [atMostOneError, h]
  cases b <;> simp [bufErrors]

theorem atMostOneError_of_dirErrors {es : List Event} {port : Nat} {b : DirCmd}
    (h : es.filter Event.isErrorClass = dirErrors port b) : atMostOneError es := by
  rw [atMostOneError, h]
  cases b <;> simp [dirErrors]

theorem writesInside_refl (s : State) (len : Nat) : WritesInside s len s.buf := ⟨id, fun _ h => .inr h⟩

/-- How a reply ends: written inside the bound, or a fault at the first index outside. -/
theorem reply_cases (s : State) (c : OpenCall) (len : Nat) (vs : List Byte) :
    (∃ m, s.reply c len (bufWriteFrom s.cfg len s.buf 0 vs) = .next (commandDone s c len m []) ∧ WritesInside s len m) ∨
    ∃ k, k < vs.length ∧ bound s.cfg len ≤ swz k ∧
      s.reply c len (bufWriteFrom s.cfg len s.buf 0 vs) = .next (s.raiseFault (some c.port) (.bufferOutOfBounds (swz k))) := by
  rcases bufWriteFrom_cases s.cfg len s.buf 0 vs with ⟨m, heq, hwf, hin⟩ | ⟨k, hk, hb, heq⟩
  · refine .inl ⟨m, ?_, hwf, hin⟩
    simp [State.reply, heq, commandDone, OpenCall.emit, OpenCall.at]
  · exact .inr ⟨k, hk, by simpa using hb, by simp [State.reply, heq]⟩

/-- The dispatch of a buffer command runs the row's meaning. -/
theorem runBufCmd_eq (b : BufCmd) (s : State) : runBufCmd b s = exec b.toInstr s := by
  cases b <;> rfl

theorem runDirCmd_eq (b : DirCmd) (s : State) : runDirCmd b s = exec b.toInstr s := by
  cases b <;> rfl

/-- How a buffer command inside a call ends: the call goes on with the cursor at `len` and the command's own error events, or a fault at an index at or above the bound
has ended it. -/
theorem runBufCmd_cases {s : State} {c : OpenCall} {len pos : Nat} {d : Device} (h : s.inBufferCall c len pos d)
    (hv : d.variant = .standardController) (b : BufCmd) :
    (∃ m es, runBufCmd b s = .next (commandDone s c len m es) ∧ WritesInside s len m ∧
      es.filter Event.isErrorClass = bufErrors c.port b) ∨
    ∃ k, k < max 4 d.origin.length ∧ bound s.cfg len ≤ swz k ∧
      runBufCmd b s = .next (s.raiseFault (some c.port) (.bufferOutOfBounds (swz k))) := by
  have copy : (∃ m es, s.reply c len (copyOrigin s d len) = .next (commandDone s c len m es) ∧ WritesInside s len m ∧
        es.filter Event.isErrorClass = []) ∨
      ∃ k, k < max 4 d.origin.length ∧ bound s.cfg len ≤ swz k ∧
        s.reply c len (copyOrigin s d len) = .next (s.raiseFault (some c.port) (.bufferOutOfBounds (swz k))) := by
    rcases reply_cases s c len d.origin with ⟨m, hm, hw⟩ | ⟨k, hk, hb, he⟩
    · exact .inl ⟨m, [], hm, hw, rfl⟩
    · exact .inr ⟨k, by omega, hb, he⟩
  cases b with
  | reset =>
    simp only [runBufCmd, execReset, onBufferCommand_eq h hv, wordWriteBE]
    rcases reply_cases s c len (wordBytes s.cfg.idWord) with ⟨m, hm, hw⟩ | ⟨k, hk, hb, he⟩
    · exact .inl ⟨m, [], hm, hw, rfl⟩
    · exact .inr ⟨k, by simp [wordBytes] at hk; omega, hb, he⟩
  | origin =>
    simp only [runBufCmd, execOrigin, onBufferCommand_eq h hv]
    exact copy
  | recalibrate =>
    simp only [runBufCmd, execRecalibrate, onBufferCommand_eq h hv]
    exact copy
  | consoleSpecific =>
    simp only [runBufCmd, execConsoleSpecific, onBufferCommand_eq h hv]
    exact .inl ⟨s.buf, _, rfl, writesInside_refl s len, by split <;> simp [bufErrors]⟩
  | unknown cmd =>
    simp only [runBufCmd, execUnknownBuf, onBufferCommand_eq h hv]
    exact .inl ⟨s.buf, _, rfl, writesInside_refl s len, by simp [bufErrors]⟩

/-- The oracles' state after a direct command: untouched, or one availability answer taken. -/
def DrawnFrom (s t : State) : Prop := t = s ∨ t = s.drawAvail

/-- How a direct command inside a call ends: the call goes on with the command's events, its own error events among them. -/
theorem runDirCmd_cases {s : State} {c : OpenCall} {d : Device} (h : s.inDirectCall c d) (b : DirCmd) :
    ∃ t es, DrawnFrom s t ∧ es.filter Event.isErrorClass = dirErrors c.port b ∧ runDirCmd b s = .next (t.setCall (c.emit es)) := by
  cases b with
  | nop p1 p2 =>
    refine ⟨s, [], .inl rfl, rfl, ?_⟩
    simp only [runDirCmd, execDnop, onDirectCommand_eq h]
    have : s.setCall (c.emit []) = s := by
      have hc := h.1
      cases s
      simp only [State.setCall, OpenCall.emit, List.append_nil] at hc ⊢
      rw [hc]
    rw [this]
  | rumble p1 p2 =>
    refine ⟨s.drawAvail, _, .inr rfl, ?_, by simp only [runDirCmd, execRumble, onDirectCommand_eq h]; rfl⟩
    split <;> simp [dirErrors]
  | unknown w =>
    exact ⟨s, [.unrecognizedDirectCommand c.port w], .inl rfl, by simp [dirErrors], by
      simp only [runDirCmd, execUnknownDir, onDirectCommand_eq h]⟩

/-- A call returned: only the buffer, the oracles' state, the polling words, the history and the result may differ. -/
structure Returned (s t : State) (len : Nat) : Prop where
  cfg : t.cfg = s.cfg
  devices : t.devices = s.devices
  retired : t.retired = s.retired
  host : t.host = s.host
  call : t.call = none
  events : ∃ es, t.events = s.events ++ es ∧ atMostOneError es
  buf : WritesInside s len t.buf
  polling : t.polling = s.polling ∨ ∃ p, t.polling = some p ∧ p.legal
  result : ∀ r, t.result ≠ some (.faulted r)

theorem filter_error_of_trace {es : List Event} (h : ∀ e ∈ es, e.isTraceClass = true) : es.filter Event.isErrorClass = [] := by
  refine List.filter_eq_nil_iff.2 fun e he => ?_
  have := h e he
  cases e <;> simp_all [Event.isTraceClass]

theorem atMostOneError_append {es es' : List Event} (h : ∀ e ∈ es, e.isTraceClass = true) (h' : atMostOneError es') :
    atMostOneError (es ++ es') := by
  unfold atMostOneError at *
  rw [List.filter_append, filter_error_of_trace h, List.nil_append]
  exact h'

/-- How a standard controller's `RunBuffer` ends. -/
theorem execStdRunBuffer_cases {s : State} {port len : Nat} {d : Device} (h : s.idleOn .standardController port d) :
    (∃ r, execStdRunBuffer port len s = .next (s.raiseFault (some port) r) ∧
      (r = .lengthOutOfRange len ∧ s.cfg.bufCap < len ∨
        ∃ k, r = .bufferOutOfBounds (swz k) ∧ len ≤ s.cfg.bufCap ∧ bound s.cfg len ≤ swz k ∧ k < max len (max 4 d.origin.length))) ∨
    ∃ t, execStdRunBuffer port len s = .next t ∧ len ≤ s.cfg.bufCap ∧ Returned s t len ∧ t.result = some (.consumed len) ∧
      (t.samples = s.samples ∧ t.avails = s.avails ∧ t.draws = s.draws ∧ t.polling = s.polling) ∧
      ∃ es, t.events = s.events ++ es ∧ es.filter Event.isErrorClass =
        if len = 0 then [] else bufErrors port (decodeBuf s.cfg (Memory.read s.buf (swz 0))) := by
  simp only [execStdRunBuffer, receiver_ok.2 h]
  rcases enterRunBuffer_cases h (interpretBuffer port len) with ⟨hl, he⟩ | ⟨k, hl, hk, hb, he⟩ | ⟨es, hl, hes, -, he⟩
  · exact .inl ⟨_, he, .inl ⟨rfl, hl⟩⟩
  · exact .inl ⟨_, he, .inr ⟨k, rfl, hl, hb, by omega⟩⟩
  · rw [he]
    by_cases h0 : len = 0
    · subst h0
      refine .inr ⟨_, rfl, hl, ⟨rfl, rfl, rfl, rfl, rfl, ⟨es, rfl, ?_⟩, writesInside_refl s 0, .inl rfl, by simp⟩, rfl,
        ⟨rfl, rfl, rfl, rfl⟩, es, rfl, by simp [filter_error_of_trace hes]⟩
      simp [atMostOneError, filter_error_of_trace hes]
    · simp only [interpretBuffer, if_neg h0, State.setCall_cfg, State.setCall_buf]
      by_cases hb : swz 0 < bound s.cfg len
      · simp only [bufRead_ok hb, setCall_setCall]
        have hin := inBufferCall_open h len 1 es
        rcases runBufCmd_cases hin h.2.2.1 (decodeBuf s.cfg (Memory.read s.buf (swz 0))) with
          ⟨m, es', hr, hw, hone⟩ | ⟨k, hk, hb', hr⟩
        · rw [show (OpenCall.at ⟨port, .runBuffer len 0, es⟩ len 1) = ⟨port, .runBuffer len 1, es⟩ from rfl, hr,
            whileOpen_open rfl]
          exact .inr ⟨_, rfl, hl, ⟨rfl, rfl, rfl, rfl, rfl, ⟨es ++ es', rfl, atMostOneError_append hes (atMostOneError_of_bufErrors hone)⟩, hw,
            .inl rfl, nofun⟩, rfl, ⟨rfl, rfl, rfl, rfl⟩, es ++ es', rfl, by
              rw [List.filter_append, filter_error_of_trace hes, hone]
              rfl⟩
        · refine .inl ⟨.bufferOutOfBounds (swz k), ?_, .inr ⟨k, rfl, hl, hb', by omega⟩⟩
          rw [show (OpenCall.at ⟨port, .runBuffer len 0, es⟩ len 1) = ⟨port, .runBuffer len 1, es⟩ from rfl, hr,
            whileOpen_closed rfl]
          rfl
      · refine .inl ⟨.bufferOutOfBounds (swz 0), ?_, .inr ⟨0, rfl, hl, by omega, by omega⟩⟩
        rw [bufRead_error (by omega)]
        rfl

/-- How a dummy's `RunBuffer` ends. -/
theorem execDummyRunBuffer_cases {s : State} {port len : Nat} {d : Device} (h : s.idleOn .dummy port d) :
    (∃ r, execDummyRunBuffer port len s = .next (s.raiseFault (some port) r) ∧
      (r = .lengthOutOfRange len ∧ s.cfg.bufCap < len ∨
        ∃ k, r = .bufferOutOfBounds (swz k) ∧ len ≤ s.cfg.bufCap ∧ bound s.cfg len ≤ swz k ∧ k < max len 4)) ∨
    ∃ t es, execDummyRunBuffer port len s = .next t ∧ len ≤ s.cfg.bufCap ∧ Returned s t len ∧ t.result = some (.consumed 4) ∧
      t.samples = s.samples ∧ t.avails = s.avails ∧ t.draws = s.draws ∧ t.polling = s.polling ∧
      t.events = s.events ++ es ∧ ∀ e ∈ es, e.isTraceClass = true := by
  simp only [execDummyRunBuffer, receiver_ok.2 h]
  rcases enterRunBuffer_cases h (dummyReply port len) with ⟨hl, he⟩ | ⟨k, hl, hk, hb, he⟩ | ⟨es, hl, hes, -, he⟩
  · exact .inl ⟨_, he, .inl ⟨rfl, hl⟩⟩
  · exact .inl ⟨_, he, .inr ⟨k, rfl, hl, hb, by omega⟩⟩
  · rw [he]
    simp only [dummyReply, wordWriteBE, State.setCall_cfg, State.setCall_buf]
    rcases bufWriteFrom_cases s.cfg len s.buf 0 (wordBytes 0x00000000#32) with ⟨m, heq, hwf, hin⟩ | ⟨k, hk, hb, heq⟩
    · rw [heq]
      refine .inr ⟨_, es, rfl, hl, ⟨rfl, rfl, rfl, rfl, rfl, ⟨es, rfl, ?_⟩, ⟨hwf, hin⟩, .inl rfl, nofun⟩, rfl, rfl, rfl,
        rfl, rfl, rfl, hes⟩
      simp [atMostOneError, filter_error_of_trace hes]
    · rw [heq]
      refine .inl ⟨.bufferOutOfBounds (swz (0 + k)), rfl, .inr ⟨0 + k, rfl, hl, hb, ?_⟩⟩
      simp [wordBytes] at hk
      omega

theorem drawAvail_openCall (s : State) (port : Nat) (f : Frame) :
    (s.openCall port f).drawAvail = s.drawAvail.openCall port f := by
  unfold State.drawAvail
  rw [State.openCall_avails]
  split <;> rfl

/-- `SendCommand` on a standard controller returns, with the events of the command its word decodes to. -/
theorem execStdSendCommand_eq {s : State} {port : Nat} {w : Word} {d : Device} (h : s.idleOn .standardController port d) :
    ∃ t es, DrawnFrom s t ∧ es.filter Event.isErrorClass = dirErrors port (decodeDir s.cfg w) ∧
      runDirCmd (decodeDir s.cfg w) (s.openCall port .sendCommand) =
        .next (t.setCall { port := port, frame := .sendCommand, events := es }) ∧
      execStdSendCommand port w s = .next (t.closeCall { port := port, frame := .sendCommand, events := es }) := by
  have hin : (s.openCall port .sendCommand).inDirectCall { port := port, frame := .sendCommand, events := [] } d :=
    ⟨rfl, rfl, h.2.1, h.2.2.1, h.2.2.2⟩
  obtain ⟨t, es, hd, hone, hr⟩ := runDirCmd_cases hin (decodeDir s.cfg w)
  have key : ∀ u, DrawnFrom s u →
      runDirCmd (decodeDir s.cfg w) (s.openCall port .sendCommand) =
        .next (u.setCall { port := port, frame := .sendCommand, events := es }) →
      ∃ t es, DrawnFrom s t ∧ es.filter Event.isErrorClass = dirErrors port (decodeDir s.cfg w) ∧
        runDirCmd (decodeDir s.cfg w) (s.openCall port .sendCommand) =
          .next (t.setCall { port := port, frame := .sendCommand, events := es }) ∧
        execStdSendCommand port w s = .next (t.closeCall { port := port, frame := .sendCommand, events := es }) := by
    intro u hu hru
    refine ⟨u, es, hu, hone, hru, ?_⟩
    simp only [execStdSendCommand, receiver_ok.2 h, hru]
    rw [whileOpen_open rfl]
    rfl
  rcases hd with rfl | rfl
  · exact key s (.inl rfl) hr
  · refine key s.drawAvail (.inr rfl) ?_
    rw [hr, drawAvail_openCall]
    rfl

end Sys2Proof.Machine
end

