-- ==== Sys2Proof/Laws/PerInstr.lean ====
section
/-! SUPPORT. Statements for all operations, one lemma per constructor. `DecodesWellFormed`: whatever packet decodes to the operation,
under whatever configuration, the operation is well-formed; a catch-all row never takes what a named row matches (30_encoding.md rule
R88). -/

open Sys2Proof

/-- A packet that decodes to the operation makes it well-formed. -/
def Sys2Proof.Laws.DecodesWellFormed.Statement (i : Instr) : Prop :=
  ∀ (c : Config) (p : Packet), decode c p = .ok i → i.wf c = true

namespace Sys2Proof.Laws.DecodesWellFormed

theorem reset : Statement .reset := fun _ _ _ => rfl
theorem origin : Statement .origin := fun _ _ _ => rfl
theorem recalibrate : Statement .recalibrate := fun _ _ _ => rfl
theorem consoleSpecific : Statement .consoleSpecific := fun _ _ _ => rfl

/-- A method packet never decodes to a command. -/
theorem method_wf {c : Config} {v : Variant} {sel : Byte} {args : MethodArgs} {i : Instr}
    (h : decodeMethod v sel args = .ok i) : i.wf c = true := by
  unfold decodeMethod at h
  split_ifs at h
  · cases v <;> cases h <;> rfl
  · cases v <;> cases h <;> rfl
  · cases v <;> cases h <;> rfl
  · cases h
    rfl

/-- A command byte decodes to a well-formed operation. -/
theorem buf_wf (c : Config) (cmd : Byte) : (decodeBuf c cmd).toInstr.wf c = true := by
  unfold decodeBuf
  split_ifs <;> simp_all [BufCmd.toInstr, Instr.wf]

/-- A direct word decodes to a well-formed operation. -/
theorem dir_wf (c : Config) (w : Word) : (decodeDir c w).toInstr.wf c = true := by
  unfold decodeDir
  dsimp only
  split_ifs <;> simp_all [DirCmd.toInstr, Instr.wf]

theorem all (i : Instr) : Statement i := by
  intro c p h
  cases p with
  | buf8 cmd =>
    cases h
    exact buf_wf c cmd
  | dir32 w =>
    cases h
    exact dir_wf c w
  | method v sel args => exact method_wf h

theorem unknownBuf (cmd : Byte) : Statement (.unknownBuf cmd) := all _
theorem dnop (p1 p2 : Byte) : Statement (.dnop p1 p2) := fun _ _ _ => rfl
theorem rumble (p1 p2 : Byte) : Statement (.rumble p1 p2) := fun _ _ _ => rfl
theorem unknownDir (w : Word) : Statement (.unknownDir w) := all _
theorem stdRunBuffer (port len : Nat) : Statement (.stdRunBuffer port len) := fun _ _ _ => rfl
theorem stdGetData (port : Nat) : Statement (.stdGetData port) := fun _ _ _ => rfl
theorem stdSendCommand (port : Nat) (w : Word) : Statement (.stdSendCommand port w) := fun _ _ _ => rfl
theorem dummyRunBuffer (port len : Nat) : Statement (.dummyRunBuffer port len) := fun _ _ _ => rfl
theorem dummyGetData (port : Nat) : Statement (.dummyGetData port) := fun _ _ _ => rfl
theorem dummySendCommand (port : Nat) (w : Word) : Statement (.dummySendCommand port w) := fun _ _ _ => rfl
theorem construct (variant : Variant) (port : Nat) (traceEnabled : Bool) : Statement (.construct variant port traceEnabled) :=
  fun _ _ _ => rfl
theorem traceHook : Statement .traceHook := fun _ _ _ => rfl

end Sys2Proof.Laws.DecodesWellFormed
end

