-- ==== Sys2Proof/Laws/Step.lean ====
section
/-! SUPPORT. What a call of the host, a construction and a step can do, once: every invariant of the step is a short case analysis
over these. -/

namespace Sys2Proof.Machine

open Sys2Proof

/-- The six operations a device runs for a call of the host on `port`. -/
def Instr.isCallOn (i : Instr) (port len : Nat) (w : Word) : Prop :=
  i = .stdRunBuffer port len ∨ i = .stdGetData port ∨ i = .stdSendCommand port w ∨ i = .dummyRunBuffer port len ∨
    i = .dummyGetData port ∨ i = .dummySendCommand port w

/-- A call that answers a next state was received. -/
theorem receiver_next {s t : State} {v : Variant} {port : Nat} {k : Device → Answer}
    (h : (match s.receiver v port with
      | .error f => Host.Outcome.fault f
      | .ok d => k d) = .next t) : ∃ d, s.idleOn v port d ∧ k d = .next t := by
  split at h
  · cases h
  · rename_i d hd
    exact ⟨d, receiver_ok.1 hd, h⟩

theorem packHi_bit23 (x : InputSample) : (packHi x).getLsbD 23 = true := by
  simp [packHi, combinedWithOrigin]

/-- How a call of the host ends: the device on the port is marked with a fault and nothing else happens, or the call returns. -/
theorem call_cases {i : Instr} {s t : State} {port len : Nat} {w : Word} (hi : Instr.isCallOn i port len w)
    (h : exec i s = .next t) :
    ∃ v d, s.idleOn v port d ∧
      ((∃ r, t = s.raiseFault (some port) r ∧
        (r = .lengthOutOfRange len ∧ s.cfg.bufCap < len ∨
          ∃ k, r = .bufferOutOfBounds (swz k) ∧ len ≤ s.cfg.bufCap ∧ bound s.cfg len ≤ swz k ∧
            k < max len (max 4 d.origin.length))) ∨
        (Returned s t len ∧ (t.buf ≠ s.buf → len ≤ s.cfg.bufCap))) := by
  have keeps : WritesInside s len s.buf := writesInside_refl s len
  rcases hi with rfl | rfl | rfl | rfl | rfl | rfl
  · obtain ⟨d, hd, -⟩ := receiver_next (k := fun _ => _) h
    refine ⟨_, d, hd, ?_⟩
    rcases execStdRunBuffer_cases (len := len) hd with ⟨r, hr, hh⟩ | ⟨u, hr, hl, hret, -⟩
    · cases hr.symm.trans h
      exact .inl ⟨r, rfl, hh⟩
    · cases hr.symm.trans h
      exact .inr ⟨hret, fun _ => hl⟩
  · obtain ⟨d, hd, hk⟩ := receiver_next (k := fun _ => _) h
    refine ⟨_, d, hd, .inr ?_⟩
    cases hk
    refine ⟨⟨?_, ?_, ?_, ?_, rfl,
      ⟨[.inputSampled port (s.nextSample port), .micButton port (s.nextSample port).micButton], ?_, ?_⟩, ?_, .inr ⟨_, rfl, .inl ⟨rfl, ⟨_, rfl, packHi_bit23 _⟩, _, rfl⟩⟩, nofun⟩, ?_⟩
    · simp
    · simp
    · simp
    · simp
    · simp
    · simp [atMostOneError]
    · simpa using keeps
    · simp
  · obtain ⟨d, hd, -⟩ := receiver_next (k := fun _ => _) h
    refine ⟨_, d, hd, .inr ?_⟩
    obtain ⟨u, es, hu, herr, -, he⟩ := execStdSendCommand_eq (w := w) hd
    have hone := atMostOneError_of_dirErrors herr
    cases he.symm.trans h
    rcases hu with rfl | rfl
    · exact ⟨⟨rfl, rfl, rfl, rfl, rfl, ⟨es, rfl, hone⟩, keeps, .inl rfl, nofun⟩, fun hne => absurd rfl hne⟩
    · refine ⟨⟨?_, ?_, ?_, ?_, rfl, ⟨es, ?_, hone⟩, ?_, .inl ?_, nofun⟩, fun hne => absurd ?_ hne⟩
      all_goals simp
      simpa using keeps
  · obtain ⟨d, hd, -⟩ := receiver_next (k := fun _ => _) h
    refine ⟨_, d, hd, ?_⟩
    rcases execDummyRunBuffer_cases (len := len) hd with ⟨r, hr, hh⟩ | ⟨u, es, hr, hl, hret, -⟩
    · cases hr.symm.trans h
      exact .inl ⟨r, rfl, hh.imp_right fun ⟨k, a, b, c, e⟩ => ⟨k, a, b, c, by omega⟩⟩
    · cases hr.symm.trans h
      exact .inr ⟨hret, fun _ => hl⟩
  · obtain ⟨d, hd, hk⟩ := receiver_next (k := fun _ => _) h
    refine ⟨_, d, hd, .inr ?_⟩
    cases hk
    exact ⟨⟨rfl, rfl, rfl, rfl, rfl, ⟨[], rfl, Nat.zero_le _⟩, keeps, .inr ⟨_, rfl, .inr ⟨rfl, rfl, rfl⟩⟩, nofun⟩,
      fun hne => absurd rfl hne⟩
  · obtain ⟨d, hd, hk⟩ := receiver_next (k := fun _ => _) h
    refine ⟨_, d, hd, .inr ?_⟩
    cases hk
    exact ⟨⟨rfl, rfl, rfl, rfl, rfl, ⟨[], rfl, Nat.zero_le _⟩, keeps, .inl rfl, nofun⟩, fun hne => absurd rfl hne⟩

/-- How a construction ends: refused with no device marked, or the port holds the new instance. -/
theorem construct_cases {s t : State} {v : Variant} {port : Nat} {tr : Bool} (h : exec (.construct v port tr) s = .next t) :
    s.call = none ∧
      ((∃ r, t = s.raiseFault none r ∧ ∀ p, r ≠ .bufferOutOfBounds p) ∨
        (configCheck s.cfg = none ∧ port < s.cfg.numPorts ∧ t = s.putDevice (newDevice s.cfg v port tr))) := by
  simp only [exec, execConstruct] at h
  split at h
  · cases h
  · rename_i hc
    refine ⟨hc, ?_⟩
    split at h
    · cases h
      exact .inl ⟨_, rfl, nofun⟩
    · rename_i hk
      split at h
      · cases h
        exact .inl ⟨_, rfl, nofun⟩
      · cases h
        exact .inr ⟨hk, by omega, rfl⟩

/-- A command or the trace hook answers a next state only while a call is in progress, and of the instances it changes at most one
port's mark. -/
theorem exec_cases {i : Instr} {s t : State} (h : exec i s = .next t) :
    (∃ port len w, Instr.isCallOn i port len w) ∨ (∃ v p tr, i = .construct v p tr) ∨
      (s.call ≠ none ∧ t.cfg = s.cfg ∧ t.retired = s.retired ∧
        (t.devices = s.devices ∨ ∃ p r, t.devices = markFaulted p r s.devices)) := by
  have reply : ∀ (c : OpenCall) len x, s.reply c len x = .next t →
      t.cfg = s.cfg ∧ t.retired = s.retired ∧ (t.devices = s.devices ∨ ∃ p r, t.devices = markFaulted p r s.devices) := by
    intro c len x hx
    unfold State.reply at hx
    split at hx <;> cases hx
    · exact ⟨rfl, rfl, .inr ⟨_, _, rfl⟩⟩
    · exact ⟨rfl, rfl, .inl rfl⟩
  cases i with
  | reset | origin | recalibrate =>
    obtain ⟨c, len, pos, d, hin, -, hk⟩ := onBufferCommand_next h
    exact .inr (.inr ⟨by simp [hin.1], reply _ _ _ hk⟩)
  | consoleSpecific | unknownBuf b =>
    obtain ⟨c, len, pos, d, hin, -, hk⟩ := onBufferCommand_next h
    cases hk
    exact .inr (.inr ⟨by simp [hin.1], rfl, rfl, .inl rfl⟩)
  | dnop p1 p2 | rumble p1 p2 | unknownDir w =>
    obtain ⟨c, d, hin, hk⟩ := onDirectCommand_next h
    cases hk
    exact .inr (.inr ⟨by simp [hin.1], by simp, by simp, .inl (by simp)⟩)
  | traceHook =>
    refine .inr (.inr ?_)
    simp only [exec, execTraceHook] at h
    split at h
    · cases h
    · rename_i c len pos hb
      refine ⟨fun hn => by simp [State.bufferCall, hn] at hb, ?_⟩
      split at h
      · cases h
      · split at h
        · split at h <;> cases h
          · exact ⟨rfl, rfl, .inr ⟨_, _, rfl⟩⟩
          · exact ⟨rfl, rfl, .inl rfl⟩
        · cases h
          exact ⟨rfl, rfl, .inl rfl⟩
  | construct v p tr => exact .inr (.inl ⟨v, p, tr, rfl⟩)
  | stdRunBuffer p l | dummyRunBuffer p l => exact .inl ⟨p, l, 0, by simp [Instr.isCallOn]⟩
  | stdGetData p | dummyGetData p => exact .inl ⟨p, 0, 0, by simp [Instr.isCallOn]⟩
  | stdSendCommand p w | dummySendCommand p w => exact .inl ⟨p, 0, w, by simp [Instr.isCallOn]⟩

/-- A packet of a method selector 0, 1 or 2 decodes to the operation of the receiving variant. -/
theorem fetch_call {s : State} {a : HostAct} {port : Nat} {sel : BitVec 8} {args : MethodArgs} {t : State}
    {rest : List HostAct} (hf : fetch s a = decodePacket s.cfg (callPacket s port sel args)) (hport : args.port = port)
    (hsel : sel = 0#8 ∨ sel = 1#8 ∨ sel = 2#8)
    (h : (match fetch s a with
      | .instr i => exec i (s.setHost rest)
      | .hostWrite p v => hostWrite p v (s.setHost rest)
      | .hostRead => hostRead (s.setHost rest)
      | .stuck f => .fault f) = .next t) :
    ∃ i, Instr.isCallOn i port args.len args.word ∧ exec i (s.setHost rest) = .next t := by
  rw [hf] at h
  unfold callPacket at h
  cases hd : findDevice port s.devices with
  | none => simp [hd, decodePacket] at h
  | some d =>
    rcases hsel with rfl | rfl | rfl <;> cases hv : d.variant <;>
      simp [hd, decodePacket, decode, decodeMethod, hv, hport] at h <;>
      exact ⟨_, by simp [Instr.isCallOn], h⟩

/-- What a step can do: nothing, a call of the host, a construction, the host's own write, or its read. -/
theorem step_cases {s t : State} (h : step s = .next t) :
    (s.host = [] ∧ t = s) ∨
    ∃ a rest, s.host = a :: rest ∧
      ((∃ i port len w, Instr.isCallOn i port len w ∧ exec i (s.setHost rest) = .next t) ∨
        (∃ v port tr, exec (.construct v port tr) (s.setHost rest) = .next t) ∨
        (∃ p v, s.call = none ∧ p < s.cfg.bufCap ∧ t = (s.setHost rest).setBuf (Memory.write s.buf p v)) ∨
        t = s.setHost rest) := by
  unfold step at h
  split at h
  · cases h
    exact .inl ⟨by assumption, rfl⟩
  · rename_i a rest hh
    refine .inr ⟨a, rest, hh, ?_⟩
    cases a with
    | construct v port tr =>
      simp only [fetch, decodePacket, decode, decodeMethod] at h
      exact .inr (.inl ⟨v, port, tr, h⟩)
    | runBuffer port len =>
      obtain ⟨i, hi, he⟩ := fetch_call (args := { port := port, len := len }) rfl rfl (.inl rfl) h
      exact .inl ⟨i, _, _, _, hi, he⟩
    | getData port =>
      obtain ⟨i, hi, he⟩ := fetch_call (args := { port := port }) rfl rfl (.inr (.inl rfl)) h
      exact .inl ⟨i, _, _, _, hi, he⟩
    | sendCommand port w =>
      obtain ⟨i, hi, he⟩ := fetch_call (args := { port := port, word := w }) rfl rfl (.inr (.inr rfl)) h
      exact .inl ⟨i, _, _, _, hi, he⟩
    | writeBuf p v =>
      simp only [fetch, hostWrite] at h
      split at h
      · cases h
      · rename_i hc
        split at h
        · rename_i hp
          cases h
          exact .inr (.inr (.inl ⟨p, v, hc, hp, rfl⟩))
        · cases h
    | readPolling =>
      simp only [fetch, hostRead] at h
      split at h
      · cases h
      · cases h
        exact .inr (.inr (.inr rfl))

end Sys2Proof.Machine
end

