-- ==== Sys2Proof/Tests/Slice0.lean ====
section
/-! SUPPORT. Small tests. The expected results are the vectors of 95_test_vectors.md (named beside each test) or worked by hand from
the encodings of 30_encoding.md. The witnesses show a state and operands that meet all the hypotheses of a statement. -/

namespace Sys2Proof.Tests

open Sys2Proof Sys2Proof.Machine

/-! ## Small states -/

/-- The bytes from physical index `p` on. -/
def bytesAt : Nat → List Byte → Memory
  | _, [] => []
  | p, b :: bs => Memory.write (bytesAt (p + 1) bs) p b

/-- The first `n` physical bytes. -/
def phys (m : Memory) (n : Nat) : List Byte := (List.range n).map (Memory.read m)

/-- Port `p` holds one instance. -/
def one (v : Variant) (p : Nat) (tr : Bool) : State := { State.reset with devices := [newDevice .default v p tr] }

/-- Four bytes at physical 0..3 and filler in 4..15 (95_test_vectors.md, 0xEE). -/
def filled (b0 b1 b2 b3 : Byte) : Memory := bytesAt 0 ([b0, b1, b2, b3] ++ List.replicate 12 0xEE#8)

/-- A standard controller on port 0 with a buffer. -/
def std (m : Memory) : State := { one .standardController 0 false with buf := m }

/-- The same, tracing. -/
def stdTr (m : Memory) : State := { one .standardController 0 true with buf := m }

/-- The Length policy. -/
def lengthCfg : Config := { Config.default with boundsPolicy := .length }

/-- One field of the next state. -/
def after {α : Type} (a : Answer) (f : State → α) : Option α :=
  match a with
  | .next t => some (f t)
  | .fault _ => none
  | .refused _ => none

/-- A `RunBuffer` call of length 4 in progress on port 0. -/
def inBuf (s : State) : State := s.setCall { port := 0, frame := .runBuffer 4 1, events := [] }

/-- A `SendCommand` call in progress on port 0. -/
def inDir (s : State) : State := s.setCall { port := 0, frame := .sendCommand, events := [] }

/-- The fields of a sample that are not given are 0. -/
def sample (stickX stickY : Byte) (buttons : HalfWord) : InputSample :=
  { stickX := stickX, stickY := stickY, subStickX := 0#8, subStickY := 0#8, triggerL := 0#8, triggerR := 0#8,
    buttons := buttons, micButton := true }

/-! ## Decoding: words written out from 30_encoding.md rules R72, R74, R75, R82 -/

theorem test_decode_reset : decode .default (.buf8 0b00000000#8) = .ok .reset := rfl
theorem test_decode_origin : decode .default (.buf8 0b01000001#8) = .ok .origin := rfl
theorem test_decode_recalibrate : decode .default (.buf8 0b01000010#8) = .ok .recalibrate := rfl
theorem test_decode_consoleSpecific : decode .default (.buf8 0b11001110#8) = .ok .consoleSpecific := rfl
theorem test_decode_unknownBuf : decode .default (.buf8 0b01010101#8) = .ok (.unknownBuf 0x55#8) := rfl
theorem test_decode_dnop :
    decode .default (.dir32 0b11111111000000000000001000000001#32) = .ok (.dnop 0x01#8 0x02#8) := rfl
theorem test_decode_rumble :
    decode .default (.dir32 0b00000000010000000000001000000001#32) = .ok (.rumble 0x01#8 0x02#8) := rfl
theorem test_decode_unknownDir :
    decode .default (.dir32 0b00000000010000010000000000000000#32) = .ok (.unknownDir 0x00410000#32) := rfl
theorem test_decode_stdRunBuffer :
    decode .default (.method .standardController 0b00000000#8 { port := 1, len := 5 }) = .ok (.stdRunBuffer 1 5) := rfl
theorem test_decode_stdGetData :
    decode .default (.method .standardController 0b00000001#8 { port := 1 }) = .ok (.stdGetData 1) := rfl
theorem test_decode_stdSendCommand :
    decode .default (.method .standardController 0b00000010#8 { port := 1, word := 7#32 }) = .ok (.stdSendCommand 1 7#32) := rfl
theorem test_decode_dummyRunBuffer :
    decode .default (.method .dummy 0b00000000#8 { port := 1, len := 5 }) = .ok (.dummyRunBuffer 1 5) := rfl
theorem test_decode_dummyGetData : decode .default (.method .dummy 0b00000001#8 { port := 1 }) = .ok (.dummyGetData 1) := rfl
theorem test_decode_dummySendCommand :
    decode .default (.method .dummy 0b00000010#8 { port := 1, word := 7#32 }) = .ok (.dummySendCommand 1 7#32) := rfl
theorem test_decode_construct :
    decode .default (.method .dummy 0b00000011#8 { port := 2, kind := .dummy, traceEnabled := true }) =
      .ok (.construct .dummy 2 true) := rfl
theorem test_decode_selector_rejected :
    decode .default (.method .dummy 0b00000100#8 {}) = .error (.unknownSelector 4#8) := rfl
/-- The direct code sits in bits 23:16, not in the top byte (95_test_vectors.md D9). -/
theorem test_decode_top_byte : decode .default (.dir32 0x40000000#32) = .ok (.dnop 0#8 0#8) := rfl
/-- The trace hook has no encoding (40_device_interface.md rule R105). -/
theorem test_encode_traceHook : encode .default .traceHook = none := by decide
theorem test_table_words :
    decodeTableWord 8 0x41 = some .origin ∧ decodeTableWord 32 0x00400000 = some (.rumble 0#8 0#8) ∧
    decodeTableWord 8 3 = some (.construct .standardController 0 false) ∧ decodeTableWord 16 0 = none := by decide

/-! ## Well-formedness: an ill-formed term for each check -/

theorem test_wf_codes :
    { Config.default with cmdOrigin := 0x00#8 }.codesDistinct = false ∧
    { Config.default with cmdRecalibrate := 0x00#8 }.codesDistinct = false ∧
    { Config.default with cmdConsoleSpecific := 0x00#8 }.codesDistinct = false ∧
    { Config.default with cmdRecalibrate := 0x41#8 }.codesDistinct = false ∧
    { Config.default with cmdConsoleSpecific := 0x41#8 }.codesDistinct = false ∧
    { Config.default with cmdConsoleSpecific := 0x42#8 }.codesDistinct = false ∧
    { Config.default with dcmdRumble := 0x00#8 }.codesDistinct = false := by decide
theorem test_wf_direct_layout :
    DirectLayout.disjoint { cmdLo := 16, p1Lo := 0, p2Lo := 4 } = false ∧
    DirectLayout.disjoint { cmdLo := 25, p1Lo := 0, p2Lo := 8 } = false ∧
    DirectLayout.disjoint { cmdLo := 8, p1Lo := 0, p2Lo := 12 } = false ∧
    DirectLayout.disjoint { cmdLo := 8, p1Lo := 1, p2Lo := 16 } = false := by decide
theorem test_wf_origin_layout :
    OriginLayout.default.places 12 = true ∧ OriginLayout.default.places 7 = false ∧
    { OriginLayout.default with originStickX := 0 }.places 12 = false := by decide
theorem test_wf_unknownBuf :
    Instr.wf .default (.unknownBuf 0x00#8) = false ∧ Instr.wf .default (.unknownBuf 0x41#8) = false ∧
    Instr.wf .default (.unknownBuf 0x42#8) = false ∧ Instr.wf .default (.unknownBuf 0xCE#8) = false ∧
    Instr.wf .default (.unknownBuf 0x01#8) = true := by decide
theorem test_wf_unknownDir :
    Instr.wf .default (.unknownDir 0x12003456#32) = false ∧ Instr.wf .default (.unknownDir 0x12403456#32) = false ∧
    Instr.wf .default (.unknownDir 0x00410000#32) = true := by decide
theorem test_config_checks :
    configCheck { Config.default with dcmdNop := 0x40#8 } = some .codesDistinct ∧
    configCheck { Config.default with originLen := 7 } = some .originLen ∧
    configCheck { Config.default with bufCap := 126 } = some .bufCap ∧
    configCheck { Config.default with bufCap := 0 } = some .bufCap := by decide

/-! ## Buffer commands: 95_test_vectors.md section 2 -/

/-- B1. -/
theorem test_reset_b1 :
    after (exec (.stdRunBuffer 0 1) (std (filled 0xEE#8 0xEE#8 0xEE#8 0x00#8))) (fun t => (phys t.buf 6, t.result, t.events)) =
      some ([0x00#8, 0x00#8, 0x00#8, 0x09#8, 0xEE#8, 0xEE#8], some (.consumed 1), []) := by decide +kernel
/-- The command alone, in a call: the cursor goes to `len`. -/
theorem test_reset_cursor :
    after (exec .reset (inBuf (std []))) (fun t => t.call) =
      some (some { port := 0, frame := .runBuffer 4 4, events := [] }) := by decide +kernel
/-- B4. -/
theorem test_origin_b4 :
    after (exec (.stdRunBuffer 0 1) (std (filled 0xEE#8 0xEE#8 0xEE#8 0x41#8))) (fun t => (phys t.buf 13, t.result)) =
      some ([0x80#8, 0x80#8, 0x00#8, 0x41#8, 0x1F#8, 0x1F#8, 0x80#8, 0x80#8, 0x00#8, 0x00#8, 0x00#8, 0x00#8, 0xEE#8],
        some (.consumed 1)) := by decide +kernel
/-- L1: under the Length policy a short ORIGIN faults at 7, the buffer keeps its contents and the device is marked. -/
theorem test_origin_l1 :
    after (exec (.stdRunBuffer 0 1) { std (filled 0xEE#8 0xEE#8 0xEE#8 0x41#8) with cfg := lengthCfg })
        (fun t => (phys t.buf 4, t.result, (findDevice 0 t.devices).map Device.faulted)) =
      some ([0xEE#8, 0xEE#8, 0xEE#8, 0x41#8], some (.faulted (.bufferOutOfBounds 7)),
        some (some (.bufferOutOfBounds 7))) := by decide +kernel
/-- B6: the reply's first logical byte is 0x41, not the command. -/
theorem test_recalibrate_b6 :
    after (exec (.stdRunBuffer 0 1) (std (filled 0xEE#8 0xEE#8 0xEE#8 0x42#8))) (fun t => phys t.buf 8) =
      some [0x80#8, 0x80#8, 0x00#8, 0x41#8, 0x1F#8, 0x1F#8, 0x80#8, 0x80#8] := by decide +kernel
/-- L2: under the Length policy length 9 has room for the record. -/
theorem test_recalibrate_l2 :
    after (exec (.stdRunBuffer 0 9) { std (filled 0xEE#8 0xEE#8 0xEE#8 0x42#8) with cfg := lengthCfg }) State.result =
      some (some (.consumed 9)) := by decide +kernel
/-- B7 and B8. -/
theorem test_consoleSpecific_b7 :
    after (exec (.stdRunBuffer 0 4) (std (filled 0x03#8 0x02#8 0x01#8 0xCE#8))) (fun t => (phys t.buf 4, t.events)) =
      some ([0x03#8, 0x02#8, 0x01#8, 0xCE#8], []) := by decide +kernel
theorem test_consoleSpecific_b8 :
    after (exec (.stdRunBuffer 0 4) (stdTr (filled 0x03#8 0x02#8 0x01#8 0xCE#8))) State.events =
      some [.trace 0 [0xCE#8, 0x01#8, 0x02#8, 0x03#8], .consoleSpecificIgnored 0 0xCE#8] := by decide +kernel
/-- B9 and B14. -/
theorem test_unknownBuf_b9 :
    after (exec (.stdRunBuffer 0 1) (std (filled 0xEE#8 0xEE#8 0xEE#8 0x55#8))) (fun t => (t.buf, t.result, t.events)) =
      some (filled 0xEE#8 0xEE#8 0xEE#8 0x55#8, some (.consumed 1), [.unrecognizedBufferCommand 0 0x55#8]) := by
  decide +kernel
theorem test_unknownBuf_b14 :
    after (exec (.stdRunBuffer 0 1) (std (filled 0x00#8 0x00#8 0x00#8 0x09#8))) State.events =
      some [.unrecognizedBufferCommand 0 0x09#8] := by decide +kernel
/-- B13: lines of eight, the trace before the reply is written. -/
theorem test_traceHook_b13 :
    after (exec (.stdRunBuffer 0 10) (stdTr (bytesAt 0 [0x03#8, 0x02#8, 0x01#8, 0x00#8, 0x07#8, 0x06#8, 0x05#8, 0x04#8, 0xEE#8,
        0xEE#8, 0x09#8, 0x08#8]))) State.events =
      some [.trace 0 [0x00#8, 0x01#8, 0x02#8, 0x03#8, 0x04#8, 0x05#8, 0x06#8, 0x07#8], .trace 0 [0x08#8, 0x09#8]] := by
  decide +kernel
/-- B12 and B16. -/
theorem test_stdRunBuffer_b12 :
    after (exec (.stdRunBuffer 0 0) (stdTr (filled 1#8 2#8 3#8 4#8))) (fun t => (t.result, t.events)) =
      some (some (.consumed 0), []) := by decide +kernel
theorem test_stdRunBuffer_b16 :
    after (exec (.stdRunBuffer 0 129) (std [])) State.result = some (some (.faulted (.lengthOutOfRange 129))) := by
  decide +kernel

/-! ## The polling words: 95_test_vectors.md section 3 -/

/-- G1, through the whole operation. -/
theorem test_stdGetData_g1 :
    after (exec (.stdGetData 0) { std [] with samples := [sample 0x34#8 0x12#8 0x5678#16] }) (fun t => (t.polling, t.events)) =
      some (some { hasNewData := true, hi := some 0x56F83412#32, low := some 0x00000000#32 },
        [.inputSampled 0 (sample 0x34#8 0x12#8 0x5678#16), .micButton 0 true]) := by decide +kernel
/-- G8. -/
theorem test_packing_g8 :
    let x : InputSample := { stickX := 0x01#8, stickY := 0xFE#8, subStickX := 0x10#8, subStickY := 0xEF#8, triggerL := 0x00#8,
                             triggerR := 0xFF#8, buttons := 0x8000#16, micButton := false }
    packHi x = 0x808001FE#32 ∧ packLow x = 0x10EF00FF#32 := by decide

/-! ## Direct commands: 95_test_vectors.md section 4 -/

theorem test_dnop_d9 :
    after (exec (.stdSendCommand 0 0x40000000#32) (std [])) (fun t => (t.events, t.result)) = some ([], some .sent) := by
  decide +kernel
theorem test_rumble_d2 :
    after (exec (.stdSendCommand 0 0x00400201#32) { std [] with avails := [true] }) State.events =
      some [.rumbleProbe 0 true, .rumble 0 0x01#8 0x02#8] := by decide +kernel
theorem test_rumble_d3 :
    after (exec (.stdSendCommand 0 0x00400201#32) { std [] with avails := [false] }) State.events =
      some [.rumbleProbe 0 false] := by decide +kernel
theorem test_unknownDir_d11 :
    after (exec (.stdSendCommand 0 0xFFFFFFFF#32) (std [])) State.events =
      some [.unrecognizedDirectCommand 0 0xFFFFFFFF#32] := by decide +kernel

/-- 60_exceptions.md rules R201 and R202: the numbers of the two error kinds. -/
theorem test_error_numbers :
    Event.errorNumber (.unrecognizedBufferCommand 0 0x55#8) = some 1 ∧
    Event.errorNumber (.unrecognizedDirectCommand 0 0xFFFFFFFF#32) = some 2 ∧
    Event.errorNumber (.consoleSpecificIgnored 0 0xCE#8) = none := by decide

/-! ## The dummy and construction: 95_test_vectors.md sections 5 and 6 -/

/-- Y1. -/
theorem test_dummyRunBuffer_y1 :
    after (exec (.dummyRunBuffer 1 8) { one .dummy 1 false with buf := bytesAt 0 [0x00#8, 0x00#8, 0x00#8, 0x41#8, 0xDD#8, 0xCC#8,
        0xBB#8, 0xAA#8] }) (fun t => (phys t.buf 8, t.result)) =
      some ([0x00#8, 0x00#8, 0x00#8, 0x00#8, 0xDD#8, 0xCC#8, 0xBB#8, 0xAA#8], some (.consumed 4)) := by decide +kernel
/-- L5. -/
theorem test_dummyRunBuffer_l5 :
    after (exec (.dummyRunBuffer 1 0) { one .dummy 1 false with cfg := lengthCfg }) State.result =
      some (some (.faulted (.bufferOutOfBounds 3))) := by decide +kernel
theorem test_dummyGetData :
    after (exec (.dummyGetData 1) (one .dummy 1 false)) (fun t => (t.polling, t.events)) =
      some (some { hasNewData := false, hi := none, low := none }, []) := by decide +kernel
theorem test_dummySendCommand :
    after (exec (.dummySendCommand 1 0x00FF0000#32) (one .dummy 1 true)) State.events = some [] := by decide +kernel
/-- K1 and K3. -/
theorem test_construct_k1 :
    after (exec (.construct .standardController 0 false) State.reset) (fun t => (findDevice 0 t.devices).map Device.origin) =
      some (some [0x41#8, 0x00#8, 0x80#8, 0x80#8, 0x80#8, 0x80#8, 0x1F#8, 0x1F#8, 0x00#8, 0x00#8, 0x00#8, 0x00#8]) := by
  decide +kernel
theorem test_construct_k3 :
    after (exec (.construct .standardController 4 false) State.reset) (fun t => (t.result, t.devices)) =
      some (some (.faulted (.portOutOfRange 4)), []) := by decide +kernel

/-! ## The step -/

/-- P4, step 4: a call on a faulted device has no step. -/
theorem test_step_faulted :
    (match step { (std []).raiseFault (some 0) (.bufferOutOfBounds 7) with host := [.getData 0] } with
      | .fault f => f == .deviceFaulted 0 (.bufferOutOfBounds 7)
      | _ => false) = true := by decide +kernel
/-- A table word runs as the first operation after reset. -/
theorem test_step_table_word :
    after (step (State.reset.withFetchWord 8 0x41)) (fun t => (phys t.buf 4, t.result)) =
      some ([0x80#8, 0x80#8, 0x00#8, 0x41#8], some (.consumed 1)) ∧
    after (step (State.reset.withFetchWord 32 0x00FF0000)) State.events =
      some [.unrecognizedDirectCommand 0 0x00FF0000#32] ∧
    after (step (State.reset.withFetchWord 8 3)) State.result = some (some (.constructed 0)) := by decide +kernel

/-! ## Witnesses: the hypotheses of each statement are met -/

/-- The device of `std`. -/
def dev : Device := newDevice .default .standardController 0 false

/-- The device of `stdTr`. -/
def devTr : Device := newDevice .default .standardController 0 true

/-- The instance of a dummy. -/
def devDum : Device := newDevice .default .dummy 1 false

/-- The calls of `inBuf` and `inDir`. -/
def bufCall : OpenCall := { port := 0, frame := .runBuffer 4 1, events := [] }
def dirCall : OpenCall := { port := 0, frame := .sendCommand, events := [] }

theorem test_witness_DecodeEncodeRoundTrip :
    Config.default.codesDistinct = true ∧ Config.default.directLayout.disjoint = true ∧
    Instr.wf .default (.rumble 0xFF#8 0xFF#8) = true ∧ Instr.wf .default (.unknownDir 0xFFFFFFFF#32) = true ∧
    Instr.wf .default .traceHook = true := by decide
theorem test_witness_CommandByteDecodesByRow : Config.default.codesDistinct = true ∧ (0xFF#8 : Byte) ≠ 0xCE#8 := by decide
theorem test_witness_DirectWordDecodesByRow :
    Config.default.codesDistinct = true ∧ Config.default.directLayout = .default := by decide
theorem test_witness_DirectTopByteIgnored :
    (0x00400201#32 : Word).extractLsb' 0 24 = (0x12400201#32 : Word).extractLsb' 0 24 ∧
    (0x00FF0000#32 : Word).extractLsb' 0 24 = (0xFFFF0000#32 : Word).extractLsb' 0 24 ∧
    (inDir (std [])).inDirectCall dirCall dev := by decide
theorem test_witness_LogicalStreamIsBigEndian :
    Memory.wf (filled 1#8 2#8 3#8 4#8) = true ∧ 4 * 31 + 4 ≤ bound .default 1 := by decide
theorem test_witness_StdRunBufferWritesOnlyReply :
    Memory.wf (filled 1#8 2#8 3#8 0x41#8) = true ∧ findDevice 0 (std (filled 1#8 2#8 3#8 0x41#8)).devices = some dev ∧
    after (exec (.stdRunBuffer 0 4) (std (filled 1#8 2#8 3#8 0x41#8))) (fun t => Memory.read t.buf 0 != 1#8) = some true := by
  decide +kernel
theorem test_witness_ResetWritesIdWord :
    (inBuf (std (filled 1#8 2#8 3#8 0#8))).inBufferCall bufCall 4 1 dev ∧ dev.variant = .standardController ∧
    Memory.wf (filled 1#8 2#8 3#8 0#8) = true ∧ configCheck .default = none ∧ 4 ≤ Config.default.bufCap := by decide
theorem test_witness_OriginAndRecalibrateCopyRecord :
    (inBuf (std [])).inBufferCall bufCall 4 1 dev ∧ configCheck .default = none ∧
    swz (dev.origin.length - 1) < bound .default 4 ∧ swz (dev.origin.length - 1) < bound lengthCfg 9 := by decide
theorem test_witness_OriginFaultsOutsideBound :
    ({ inBuf (std []) with cfg := lengthCfg }).inBufferCall bufCall 4 1 dev ∧ dev.variant = .standardController ∧
    configCheck lengthCfg = none ∧ bound lengthCfg 4 < dev.origin.length ∧ ¬ bound lengthCfg 9 < dev.origin.length ∧
    lengthCfg.boundsPolicy = .length ∧ configCheck { Config.default with bufCap := 4 } = none ∧
    bound { Config.default with bufCap := 4 } 4 < dev.origin.length := by decide
theorem test_witness_ConsoleSpecificOnlyTraces :
    (inBuf (stdTr [])).inBufferCall bufCall 4 1 devTr ∧ devTr.variant = .standardController ∧ devTr.traceEnabled = true ∧
    (inBuf (std [])).inBufferCall bufCall 4 1 dev ∧ dev.traceEnabled = false := by decide
theorem test_witness_UnknownBufReportsOnce :
    (inBuf (std [])).inBufferCall bufCall 4 1 dev ∧ dev.variant = .standardController := by decide
theorem test_witness_TraceHookEmitsLines :
    (inBuf (std [])).inBufferCall bufCall 4 1 dev ∧ dev.traceEnabled = false ∧
    (inBuf (stdTr [])).inBufferCall bufCall 4 1 devTr ∧ devTr.traceEnabled = true ∧
    (∀ k, k < 4 → swz k < bound .default 4) ∧ (∀ k, k < 128 → swz k < bound .default 128) ∧
    (inBuf { stdTr [] with cfg := { Config.default with bufCap := 3 } }).inBufferCall bufCall 4 1 devTr ∧ 0 < 4 ∧
    bound { Config.default with bufCap := 3 } 4 ≤ swz 0 := by decide
theorem test_witness_DnopDoesNothing : (inDir (std [])).inDirectCall dirCall dev := by decide
theorem test_witness_RumbleForwardsWhenAvailable :
    ({ inDir (std []) with avails := [true] }).inDirectCall dirCall dev ∧
    ({ inDir (std []) with avails := [true] }).nextAvail 0 = true ∧
    ({ inDir (std []) with avails := [false] }).nextAvail 0 = false := by decide
theorem test_witness_UnknownDirReportsOnce : (inDir (std [])).inDirectCall dirCall dev := by decide
theorem test_witness_StdRunBufferRunsDecodedCommand :
    (std []).idleOn .standardController 0 dev ∧ 1 ≤ 128 ∧ 128 ≤ Config.default.bufCap ∧ configCheck .default = none := by decide
theorem test_witness_StdRunBufferResultIsLength : ∃ t, exec (.stdRunBuffer 0 3) (std []) = .next t := ⟨_, rfl⟩
theorem test_witness_StdRunBufferCompletes :
    (std []).idleOn .standardController 0 dev ∧ 128 ≤ Config.default.bufCap ∧ configCheck .default = none ∧
    swz (dev.origin.length - 1) < bound .default 128 ∧ swz (dev.origin.length - 1) < bound .default 0 := by decide
theorem test_witness_EmptyBufferReturnsZero : (std []).idleOn .standardController 0 dev := by decide
theorem test_witness_OverlongCallIsRefused :
    Config.default.bufCap < 129 ∧ (std []).idleOn .standardController 0 dev ∧
    (one .dummy 1 false).idleOn .dummy 1 devDum := by decide
theorem test_witness_BytesBeyondCommandAreIgnored :
    (std (filled 1#8 2#8 3#8 0x41#8)).idleOn .standardController 0 dev ∧ dev.traceEnabled = false ∧
    Memory.wf (filled 1#8 2#8 3#8 0x41#8) = true ∧ Memory.wf (filled 9#8 9#8 9#8 0x41#8) = true ∧
    Memory.read (filled 1#8 2#8 3#8 0x41#8) (swz 0) = Memory.read (filled 9#8 9#8 9#8 0x41#8) (swz 0) ∧
    (after (exec (.stdRunBuffer 0 4) (std (filled 1#8 2#8 3#8 0x41#8))) State.result).isSome ∧
    (after (exec (.stdRunBuffer 0 4) (std (filled 9#8 9#8 9#8 0x41#8))) State.result).isSome := by decide +kernel

/-- A standard controller on port 0 and a buffer in its canonical form meet the invariant. -/
theorem std_inv (m : Memory) (hm : m.wf = true) (hi : ∀ cell ∈ m, cell.1 < 128) : (std m).Inv where
  bufWf := hm
  bufInside := hi
  ports := ⟨Nat.zero_le _, trivial⟩
  constructed := fun d hd => by
    rw [List.mem_singleton.1 hd]
    exact ⟨(by decide : 0 < 4), rfl⟩
  checked := fun _ => (by decide : configCheck Config.default = none)
  noCall := rfl
  pollingLegal := nofun

theorem test_witness_ReusedBufferRunsReplyByte :
    (std (filled 1#8 2#8 3#8 0x00#8)).Inv ∧ (std (filled 1#8 2#8 3#8 0x42#8)).Inv ∧ (std []).cfg = .default ∧
    (std (filled 1#8 2#8 3#8 0x00#8)).idleOn .standardController 0 dev ∧ dev.traceEnabled = false ∧
    after (exec (.stdRunBuffer 0 1) (std (filled 1#8 2#8 3#8 0x00#8))) State.result = some (some (.consumed 1)) ∧
    after (exec (.stdRunBuffer 0 1) (std (filled 1#8 2#8 3#8 0x42#8))) State.result = some (some (.consumed 1)) :=
  ⟨std_inv _ (by decide) (by decide), std_inv _ (by decide) (by decide), rfl, by decide, rfl, by decide +kernel, by decide +kernel⟩
theorem test_witness_StdGetDataPacksOneSample : (std []).idleOn .standardController 0 dev := by decide
theorem test_witness_StdSendCommandRunsDecodedCommand : (std []).idleOn .standardController 0 dev := by decide
theorem test_witness_DummyRunBufferWritesZeroWord :
    (one .dummy 1 false).idleOn .dummy 1 devDum ∧ Memory.wf (one .dummy 1 false).buf = true ∧ 128 ≤ Config.default.bufCap ∧
    configCheck .default = none ∧ (Config.default.boundsPolicy = .length → 1 ≤ 0) := by decide
theorem test_witness_DummyEmptyCallFaultsUnderLength :
    ({ one .dummy 1 false with cfg := lengthCfg }).idleOn .dummy 1 devDum ∧ lengthCfg.boundsPolicy = .length := by decide
theorem test_witness_DummyPollAndSendDoNothing : (one .dummy 1 false).idleOn .dummy 1 devDum := by decide
theorem test_witness_DummyEmitsOnlyTraceLines :
    (∃ t, exec (.dummyRunBuffer 1 3) (one .dummy 1 true) = .next t) ∧ (∃ t, exec (.dummyGetData 1) (one .dummy 1 true) = .next t) ∧
    ∃ t, exec (.dummySendCommand 1 5#32) (one .dummy 1 true) = .next t := ⟨⟨_, rfl⟩, ⟨_, rfl⟩, ⟨_, rfl⟩⟩
theorem test_witness_ConstructPutsNewInstance :
    (std []).call = none ∧ configCheck (std []).cfg = none ∧ 3 < (std []).cfg.numPorts ∧ 0 < (std []).cfg.numPorts := by decide
theorem test_witness_ConstructRefusals :
    State.reset.call = none ∧ configCheck State.reset.cfg = none ∧ State.reset.cfg.numPorts ≤ 4 ∧
    configCheck { Config.default with originLen := 7 } = some .originLen ∧
    configCheck { Config.default with bufCap := 2 } = some .bufCap ∧
    configCheck { Config.default with cmdOrigin := 0x42#8 } = some .codesDistinct := by decide
theorem test_witness_ResetOriginBytes : Config.default.originLayout = .default ∧ 8 ≤ Config.default.originLen := by decide
theorem test_witness_StepRunsDecodedInstruction :
    ({ std [] with host := [.getData 0] }).host = .getData 0 :: [] ∧ findDevice 0 (std []).devices = some dev ∧
    dev.variant = .standardController ∧ findDevice 1 (one .dummy 1 false).devices = some devDum ∧ devDum.variant = .dummy := by
  decide
theorem test_witness_ReadingUnwrittenWordsFaults :
    ({ std [] with host := [.readPolling] }).host = .readPolling :: [] ∧
    ({ std [] with polling := some { hasNewData := true, hi := some 1#32, low := some 2#32 } }).polling.isSome = true ∧
    ({ std [] with polling := some { hasNewData := false, hi := none, low := none } }).polling =
      some { hasNewData := false, hi := none, low := none } ∧ (std []).polling = none := by decide
theorem test_witness_HostWritesItsOwnBuffer :
    State.reset.host = [] ∧ ({ std [] with host := [.writeBuf 127 1#8] }).host = .writeBuf 127 1#8 :: [] ∧ (std []).call = none ∧
    Memory.wf (std []).buf = true ∧ 127 < (std []).cfg.bufCap ∧ ¬ 128 < (std []).cfg.bufCap := by decide
theorem test_witness_StepKeepsInvariant :
    (std []).Inv ∧ (∃ t, step (std []) = .next t) ∧ ∃ t, step { std [] with host := [.runBuffer 0 1] } = .next t :=
  ⟨std_inv _ rfl nofun, ⟨_, rfl⟩, ⟨_, rfl⟩⟩
theorem test_witness_OnlyConstructSetsDeviceFields :
    (∃ t, exec .origin (inBuf (std [])) = .next t) ∧ ∃ t, exec (.stdRunBuffer 0 200) (std []) = .next t := ⟨⟨_, rfl⟩, ⟨_, rfl⟩⟩
theorem test_witness_FaultMarkIsNeverCleared :
    (∃ t, step { (std []).raiseFault (some 0) (.bufferOutOfBounds 7) with host := [.construct .dummy 0 false] } = .next t) ∧
    (∃ d ∈ ((std []).raiseFault (some 0) (.bufferOutOfBounds 7)).devices, d.faulted.isSome = true) ∧
    ∃ t, step (std []) = .next t ∧ t.good :=
  ⟨⟨_, rfl⟩, by decide, ⟨_, rfl, fun d hd => by rw [List.mem_singleton.1 hd]; rfl⟩⟩
theorem test_witness_FaultedDeviceHasNoStep :
    ((std []).raiseFault (some 0) (.bufferOutOfBounds 7)).call = none ∧
    findDevice 0 ((std []).raiseFault (some 0) (.bufferOutOfBounds 7)).devices =
      some { dev with faulted := some (.bufferOutOfBounds 7) } := by decide
theorem test_witness_CallsNeedReceiver :
    (inBuf (std [])).call ≠ none ∧ State.reset.call = none ∧ findDevice 0 State.reset.devices = none ∧ (std []).call = none ∧
    findDevice 0 (std []).devices = some dev ∧ dev.faulted = none ∧ dev.variant ≠ .dummy := by decide
theorem test_witness_CommandsNeedTheirCall :
    (∀ c len pos, (std []).call = some c → c.frame ≠ .runBuffer len pos) ∧
    (∀ c, (std []).call = some c → c.frame ≠ .sendCommand) ∧
    (∀ c len pos, (inDir (std [])).call = some c → c.frame ≠ .runBuffer len pos) ∧
    (∀ c, (inBuf (std [])).call = some c → c.frame ≠ .sendCommand) ∧
    findDevice 0 (markFaulted 0 (.bufferOutOfBounds 7) (inBuf (std [])).devices) =
      some { dev with faulted := some (.bufferOutOfBounds 7) } :=
  ⟨nofun, nofun, fun _ _ _ h => by cases h; nofun, fun _ h => by cases h; nofun, rfl⟩
theorem test_witness_StepAppendsAtMostOneError : ∃ t, step { std [] with host := [.sendCommand 0 0x00FF0000#32] } = .next t := ⟨_, rfl⟩
theorem test_witness_ErrorsOnlyFromUnknownCommands :
    (∃ t, exec (.stdRunBuffer 0 4) (std (filled 1#8 2#8 3#8 0x55#8)) = .next t ∧ t.result = some (.consumed 4)) ∧
    decodeBuf .default (Memory.read (filled 1#8 2#8 3#8 0x55#8) (swz 0)) = .unknown 0x55#8 ∧
    (∃ t, exec (.stdRunBuffer 0 0) (std []) = .next t) ∧
    (∃ t, exec (.stdSendCommand 0 0xFFFFFFFF#32) (std []) = .next t) ∧ decodeDir .default 0xFFFFFFFF#32 = .unknown 0xFFFFFFFF#32 ∧
    (∃ t, exec (.stdGetData 0) (std []) = .next t) ∧ (∃ t, exec (.dummyRunBuffer 1 3) (one .dummy 1 true) = .next t) ∧
    ∃ t, exec (.construct .dummy 1 true) (std []) = .next t :=
  ⟨⟨_, rfl, rfl⟩, by decide, ⟨_, rfl⟩, ⟨_, rfl⟩, by decide, ⟨_, rfl⟩, ⟨_, rfl⟩, ⟨_, rfl⟩⟩
theorem test_witness_OtherPortsAreUntouched :
    (∃ t, exec (.stdRunBuffer 0 200) (std []) = .next t) ∧ (∃ t, exec (.construct .dummy 1 true) (std []) = .next t) ∧ 1 ≠ 0 :=
  ⟨⟨_, rfl⟩, ⟨_, rfl⟩, by decide⟩
theorem test_witness_FaultingCallHasNoEffect :
    ∃ t, exec (.stdRunBuffer 0 200) (std []) = .next t ∧ t.result = some (.faulted (.lengthOutOfRange 200)) := ⟨_, rfl, rfl⟩
theorem test_witness_TracingChangesNothingElse :
    configCheck (stdTr []).cfg = none ∧ ∃ t, exec (.stdRunBuffer 0 4) (stdTr []) = .next t := ⟨by decide, ⟨_, rfl⟩⟩
theorem test_witness_DefaultNeverOutOfBounds :
    (std []).Inv ∧ (std []).cfg = .default ∧ ∃ t, exec (.stdRunBuffer 0 4) (std []) = .next t := ⟨std_inv _ rfl nofun, rfl, ⟨_, rfl⟩⟩
theorem test_witness_EachDrawTakesOneAnswer :
    (∃ t, exec (.stdGetData 0) (std []) = .next t) ∧
    (∃ t, exec (.stdSendCommand 0 0x00400000#32) (std []) = .next t) ∧ decodeDir .default 0x00400000#32 = .rumble 0#8 0#8 ∧
    (∃ t, exec (.stdSendCommand 0 0#32) (std []) = .next t) ∧ decodeDir .default 0#32 = .nop 0#8 0#8 ∧
    ∃ t, exec (.stdRunBuffer 0 4) (std []) = .next t := ⟨⟨_, rfl⟩, ⟨_, rfl⟩, by decide, ⟨_, rfl⟩, by decide, ⟨_, rfl⟩⟩

end Sys2Proof.Tests
end

section
/-! The configuration checks of 60_exceptions.md rule R207: what each of them asks, and what passing them all means. -/

namespace Sys2Proof.Machine

open Sys2Proof

/-- 00_scope.md rule R9: the four buffer codes differ pairwise, and so do the two direct codes. -/
theorem codesDistinct_iff (c : Config) :
    c.codesDistinct = true ↔
      c.cmdReset ≠ c.cmdOrigin ∧ c.cmdReset ≠ c.cmdRecalibrate ∧ c.cmdReset ≠ c.cmdConsoleSpecific ∧
      c.cmdOrigin ≠ c.cmdRecalibrate ∧ c.cmdOrigin ≠ c.cmdConsoleSpecific ∧ c.cmdRecalibrate ≠ c.cmdConsoleSpecific ∧
      c.dcmdNop ≠ c.dcmdRumble := by
  simp only [Config.codesDistinct, Bool.and_eq_true, bne_iff_ne, and_assoc]

/-- 60_exceptions.md rule R207: no check is reported exactly when each of the three passes. -/
theorem configCheck_eq_none_iff (c : Config) :
    configCheck c = none ↔ c.codesDistinct = true ∧ 8 ≤ c.originLen ∧ c.bufCap % 4 = 0 ∧ 4 ≤ c.bufCap := by
  unfold configCheck
  split
  case isTrue hcodes => simp [hcodes]
  case isFalse hcodes =>
    have hdistinct : c.codesDistinct = true := Bool.eq_true_of_not_eq_false hcodes
    split
    case isTrue hlen => simp [Nat.not_le.mpr hlen]
    case isFalse hlen =>
      split
      case isTrue hcap =>
        simp only [reduceCtorEq, false_iff]
        rintro ⟨-, -, hmod, hmin⟩
        omega
      case isFalse hcap =>
        have hbounds : 8 ≤ c.originLen ∧ c.bufCap % 4 = 0 ∧ 4 ≤ c.bufCap := by omega
        simp [hdistinct, hbounds]

theorem configCheck_default : configCheck .default = none := by decide

/-- Settles O37: each check of `configCheck` passes exactly when its rule holds, and the default values meet all three. -/
theorem configurationChecks : Obligations.ConfigurationChecks := by
  refine ⟨fun c => ?_, configCheck_default⟩
  rw [configCheck_eq_none_iff, codesDistinct_iff]

end Sys2Proof.Machine
end

section
/-! The state between two calls (10_state.md): what the host's own actions do, the stop at a faulted device, the invariant every step
keeps, and the fault mark no step clears. The last two are one case analysis of `step_cases` each, over a lemma per update. -/

namespace Sys2Proof.Machine

open Sys2Proof

/-! ## The host's own actions (R37, R234) -/

theorem step_idle {s : State} (h : s.host = []) : step s = .next s := by
  simp only [step, h]

theorem step_writeBuf {s : State} {rest : List HostAct} {p : Nat} {v : Byte} (h : s.host = .writeBuf p v :: rest) :
    step s = hostWrite p v (s.setHost rest) := by
  simp only [step, h, fetch]

theorem hostWrite_inside {s : State} {p : Nat} (hc : s.call = none) (hp : p < s.cfg.bufCap) (v : Byte) :
    hostWrite p v s = .next (s.setBuf (Memory.write s.buf p v)) := by
  simp only [hostWrite, hc, if_pos hp]

theorem hostWrite_outside {s : State} {p : Nat} (hc : s.call = none) (hp : s.cfg.bufCap ≤ p) (v : Byte) :
    hostWrite p v s = .fault (.hostWriteOutsideBuffer p) := by
  simp only [hostWrite, hc, if_neg (Nat.not_lt.mpr hp)]

/-- Settles O41: the two stops and the one write of `hostWrite`, with the buffer's read after a write. -/
theorem hostWritesItsOwnBuffer : Obligations.HostWritesItsOwnBuffer := by
  refine ⟨fun s => step_idle, fun s rest p v hhost hcall => ⟨fun hwf hp => ?_, fun hp => ?_⟩⟩
  · refine ⟨Memory.write s.buf p v, ?_, Memory.write_wf hwf p v, fun a => Memory.read_write hwf p a v⟩
    exact (step_writeBuf hhost).trans (hostWrite_inside (s := s.setHost rest) hcall hp v)
  · exact (step_writeBuf hhost).trans (hostWrite_outside (s := s.setHost rest) hcall hp v)

/-! ## A faulted device (R38) -/

theorem receiver_faulted {s : State} {port : Nat} {d : Device} {r : FaultReason} (hc : s.call = none)
    (hd : findDevice port s.devices = some d) (hr : d.faulted = some r) (v : Variant) :
    s.receiver v port = .error (.deviceFaulted port r) := by
  simp only [State.receiver, hc, State.deviceOf, State.liveDevice, hd, hr]

/-- A call no device of either variant receives stops with the receiver's fault. -/
theorem exec_call_of_receiver_error {i : Instr} {s : State} {port len : Nat} {w : Word} {f : Fault}
    (hi : Instr.isCallOn i port len w) (h : ∀ v, s.receiver v port = .error f) : exec i s = .fault f := by
  rcases hi with rfl | rfl | rfl | rfl | rfl | rfl
  · simp only [exec, execStdRunBuffer, h]
  · simp only [exec, execStdGetData, h]
  · simp only [exec, execStdSendCommand, h]
  · simp only [exec, execDummyRunBuffer, h]
  · simp only [exec, execDummyGetData, h]
  · simp only [exec, execDummySendCommand, h]

/-- Settles O46: a faulted device receives no call. -/
theorem faultedDeviceHasNoStep : Obligations.FaultedDeviceHasNoStep :=
  fun _ _ _ _ _ _ _ hc hd hr hi => exec_call_of_receiver_error hi (receiver_faulted hc hd hr)

/-! ## Where the devices of the next state come from, and where those of a state go -/

/-- `e` is the device `d`, as it was or with a fault mark set; every other field is as in `d`. -/
def SameOrMarked (d e : Device) : Prop := e = d ∨ ∃ p r, e = d.mark p r

theorem SameOrMarked.fields {d e : Device} (h : SameOrMarked d e) :
    e.port = d.port ∧ e.variant = d.variant ∧ e.origin = d.origin := by
  rcases h with rfl | ⟨p, r, rfl⟩ <;> simp

theorem SameOrMarked.asConstructed {c : Config} {d e : Device} (h : SameOrMarked d e) (hd : d.asConstructed c) :
    e.asConstructed c := by
  obtain ⟨hport, hvariant, horigin⟩ := h.fields
  rwa [Device.asConstructed, hport, hvariant, horigin]

theorem SameOrMarked.faulted {d e : Device} (h : SameOrMarked d e) (hd : d.faulted.isSome = true) :
    e.faulted.isSome = true := by
  rcases h with rfl | ⟨p, r, rfl⟩
  · exact hd
  · rw [Device.mark_faulted]
    split
    · rfl
    · exact hd

theorem mem_raiseFault {s : State} {target : Option Nat} {r : FaultReason} {e : Device}
    (h : e ∈ (s.raiseFault target r).devices ++ (s.raiseFault target r).retired) :
    ∃ d ∈ s.devices ++ s.retired, SameOrMarked d e := by
  rcases List.mem_append.1 h with h | h
  · cases target with
    | none => exact ⟨e, List.mem_append_left _ h, .inl rfl⟩
    | some p =>
      obtain ⟨d, hd, he⟩ := mem_markFaulted.1 h
      exact ⟨d, List.mem_append_left _ hd, .inr ⟨p, r, he.symm⟩⟩
  · exact ⟨e, List.mem_append_right _ h, .inl rfl⟩

theorem raiseFault_keeps_device {s : State} {d : Device} (h : d ∈ s.devices ++ s.retired) (target : Option Nat)
    (r : FaultReason) :
    ∃ e ∈ (s.raiseFault target r).devices ++ (s.raiseFault target r).retired, SameOrMarked d e := by
  rcases List.mem_append.1 h with h | h
  · cases target with
    | none => exact ⟨d, List.mem_append_left _ h, .inl rfl⟩
    | some p => exact ⟨d.mark p r, List.mem_append_left _ (mem_markFaulted.2 ⟨d, h, rfl⟩), .inr ⟨p, r, rfl⟩⟩
  · exact ⟨d, List.mem_append_right _ h, .inl rfl⟩

theorem mem_putDevice {s : State} {d e : Device} (h : e ∈ (s.putDevice d).devices ++ (s.putDevice d).retired) :
    e = d ∨ e ∈ s.devices ++ s.retired := by
  rcases List.mem_append.1 h with h | h
  · exact (mem_insertDevice h).imp_right (List.mem_append_left _)
  · rw [State.putDevice_retired] at h
    cases hfind : findDevice d.port s.devices with
    | none => exact .inr (List.mem_append_right _ (by simpa only [hfind] using h))
    | some old =>
      simp only [hfind, List.mem_append, List.mem_singleton] at h
      rcases h with h | rfl
      · exact .inr (List.mem_append_right _ h)
      · exact .inr (List.mem_append_left _ (findDevice_some hfind).2)

/-- Construct loses no device: the one it replaces is retired (assumption log entry 11). -/
theorem mem_putDevice_of_mem {s : State} {e : Device} (h : e ∈ s.devices ++ s.retired) (d : Device) :
    e ∈ (s.putDevice d).devices ++ (s.putDevice d).retired := by
  rw [State.putDevice_retired]
  rcases List.mem_append.1 h with h | h
  · rcases mem_insertDevice_of_mem (d := d) h with h | hfind
    · exact List.mem_append_left _ h
    · simp [hfind]
  · cases hfind : findDevice d.port s.devices <;> simp [h]

/-- No step loses a device or changes anything in it but its mark, and a mark is only ever set. -/
theorem step_keeps_device {s t : State} (h : step s = .next t) {d : Device} (hd : d ∈ s.devices ++ s.retired) :
    ∃ e ∈ t.devices ++ t.retired, SameOrMarked d e := by
  rcases step_cases h with ⟨-, rfl⟩ | ⟨a, rest, -, hcall | hconstruct | ⟨p, v, -, -, rfl⟩ | rfl⟩
  · exact ⟨d, hd, .inl rfl⟩
  · obtain ⟨i, port, len, w, hi, he⟩ := hcall
    obtain ⟨v, d', -, ⟨r, rfl, -⟩ | ⟨hret, -⟩⟩ := call_cases hi he
    · exact raiseFault_keeps_device (s := s.setHost rest) hd _ r
    · exact ⟨d, by rw [hret.devices, hret.retired]; exact hd, .inl rfl⟩
  · obtain ⟨v, port, tr, he⟩ := hconstruct
    obtain ⟨-, ⟨r, rfl, -⟩ | ⟨-, -, rfl⟩⟩ := construct_cases he
    · exact raiseFault_keeps_device (s := s.setHost rest) hd _ r
    · exact ⟨d, mem_putDevice_of_mem (s := s.setHost rest) hd _, .inl rfl⟩
  · exact ⟨d, hd, .inl rfl⟩
  · exact ⟨d, hd, .inl rfl⟩

/-- Settles O45: a step keeps every device, with its mark or with a new one. -/
theorem faultMarkIsNeverCleared : Obligations.FaultMarkIsNeverCleared := by
  intro s t h
  refine ⟨fun d hd hmark => ?_, fun hgood d hd => ?_⟩
  · obtain ⟨e, he, hsame⟩ := step_keeps_device h hd
    obtain ⟨hport, hvariant, horigin⟩ := hsame.fields
    exact ⟨e, he, hport, hvariant, horigin, hsame.faulted hmark⟩
  · obtain ⟨e, he, hsame⟩ := step_keeps_device h hd
    by_contra hmark
    have hmarked : e.faulted.isSome = true := hsame.faulted (Option.isSome_iff_ne_none.2 hmark)
    rw [hgood e he] at hmarked
    cases hmarked

/-! ## The invariant, update by update -/

theorem newDevice_asConstructed {c : Config} {port : Nat} (hp : port < c.numPorts) (v : Variant) (tr : Bool) :
    (newDevice c v port tr).asConstructed c := ⟨hp, rfl⟩

namespace State.Inv

theorem setHost {s : State} (h : s.Inv) (rest : List HostAct) : (s.setHost rest).Inv :=
  ⟨h.bufWf, h.bufInside, h.ports, h.constructed, h.checked, h.noCall, h.pollingLegal⟩

theorem setBuf_write {s : State} (h : s.Inv) {p : Nat} (hp : p < s.cfg.bufCap) (v : Byte) :
    (s.setBuf (Memory.write s.buf p v)).Inv where
  bufWf := Memory.write_wf h.bufWf p v
  bufInside cell hcell := (Memory.mem_write hcell).elim (fun heq => heq ▸ hp) (h.bufInside cell)
  ports := h.ports
  constructed := h.constructed
  checked := h.checked
  noCall := h.noCall
  pollingLegal := h.pollingLegal

theorem raiseFault {s : State} (h : s.Inv) (target : Option Nat) (r : FaultReason) : (s.raiseFault target r).Inv where
  bufWf := h.bufWf
  bufInside := h.bufInside
  ports := by
    cases target with
    | none => exact h.ports
    | some p => exact portsRise_mark p r h.ports
  constructed e he := by
    obtain ⟨d, hd, hsame⟩ := mem_raiseFault he
    exact hsame.asConstructed (h.constructed d hd)
  checked hne := by
    obtain ⟨e, he⟩ := List.exists_mem_of_ne_nil _ hne
    obtain ⟨d, hd, -⟩ := mem_raiseFault he
    exact h.checked (List.ne_nil_of_mem hd)
  noCall := rfl
  pollingLegal := h.pollingLegal

theorem putDevice {s : State} (h : s.Inv) (hc : configCheck s.cfg = none) {d : Device} (hd : d.asConstructed s.cfg) :
    (s.putDevice d).Inv where
  bufWf := h.bufWf
  bufInside := h.bufInside
  ports := portsRise_insert h.ports (Nat.zero_le _)
  constructed e he := (mem_putDevice he).elim (fun heq => heq ▸ hd) (h.constructed e)
  checked _ := hc
  noCall := h.noCall
  pollingLegal := h.pollingLegal

/-- A state that holds a device was configured under passing checks. -/
theorem configCheck_of_findDevice {s : State} (h : s.Inv) {port : Nat} {d : Device}
    (hd : findDevice port s.devices = some d) : configCheck s.cfg = none :=
  h.checked (List.ne_nil_of_mem (List.mem_append_left _ (findDevice_some hd).2))

/-- A returned call keeps the invariant: what it wrote lies inside the policy's bound, which a legal length keeps inside the
capacity. -/
theorem returned {s t : State} {len : Nat} (h : s.Inv) (hret : Returned s t len)
    (hc : configCheck s.cfg = none) (hlen : t.buf ≠ s.buf → len ≤ s.cfg.bufCap) : t.Inv where
  bufWf := hret.buf.1 h.bufWf
  bufInside cell hcell := by
    rw [hret.cfg]
    by_cases hbuf : t.buf = s.buf
    · exact h.bufInside cell (hbuf ▸ hcell)
    · obtain ⟨-, hbound, -⟩ := bound_ok hc (hlen hbuf)
      exact (hret.buf.2 cell hcell).elim (fun hlt => Nat.lt_of_lt_of_le hlt hbound) (h.bufInside cell)
  ports := hret.devices ▸ h.ports
  constructed := by
    rw [hret.devices, hret.retired, hret.cfg]
    exact h.constructed
  checked := by
    rw [hret.cfg]
    exact fun _ => hc
  noCall := hret.call
  pollingLegal p hp := by
    rcases hret.polling with hsame | ⟨q, hq, hlegal⟩
    · exact h.pollingLegal p (hsame ▸ hp)
    · exact Option.some.inj (hq.symm.trans hp) ▸ hlegal

theorem call {s t : State} {i : Instr} {port len : Nat} {w : Word} (h : s.Inv) (hi : Instr.isCallOn i port len w)
    (he : exec i s = .next t) : t.Inv := by
  obtain ⟨v, d, ⟨-, hd, -, -⟩, ⟨r, rfl, -⟩ | ⟨hret, hlen⟩⟩ := call_cases hi he
  · exact h.raiseFault _ r
  · exact h.returned hret (h.configCheck_of_findDevice hd) hlen

theorem construct {s t : State} {v : Variant} {port : Nat} {tr : Bool} (h : s.Inv)
    (he : exec (.construct v port tr) s = .next t) : t.Inv := by
  obtain ⟨-, ⟨r, rfl, -⟩ | ⟨hc, hp, rfl⟩⟩ := construct_cases he
  · exact h.raiseFault none r
  · exact h.putDevice hc (newDevice_asConstructed hp v tr)

end State.Inv

/-- Settles O42: each of the ends of `step_cases` keeps the invariant. -/
theorem stepKeepsInvariant : Obligations.StepKeepsInvariant := by
  intro s t h hstep
  rcases step_cases hstep with ⟨-, rfl⟩ | ⟨a, rest, -, hcall | hconstruct | ⟨p, v, -, hp, rfl⟩ | rfl⟩
  · exact h
  · obtain ⟨i, port, len, w, hi, he⟩ := hcall
    exact (h.setHost rest).call hi he
  · obtain ⟨v, port, tr, he⟩ := hconstruct
    exact (h.setHost rest).construct he
  · exact (h.setHost rest).setBuf_write hp v
  · exact h.setHost rest

end Sys2Proof.Machine
end

section
/-! The command buffer (20_memory.md): the swizzle's byte order, what a `RunBuffer` call of the standard controller can change in the
buffer, and the refusal of a call longer than the capacity. -/

namespace Sys2Proof.Machine

open Sys2Proof

/-! ## The swizzle (R53, R55) -/

theorem swz_group {k j : Nat} (h : j ≤ 3) : swz (4 * k + j) = 4 * k + (3 - j) := by
  rw [swz_eq]
  omega

theorem swz_swz (i : Nat) : swz (swz i) = i := Nat.xor_xor_cancel_right i 3

/-- Settles O8: the transform's definition, its value inside a group, and the cancellation of the two exclusive ors. -/
theorem swizzleReversesEachGroup : Obligations.SwizzleReversesEachGroup :=
  ⟨fun _ => rfl, fun _ _ => swz_group, swz_swz⟩

/-- A checked read of a byte whose group lies inside the bound. -/
theorem bufRead_group {c : Config} {len k j : Nat} (hb : 4 * k + 4 ≤ bound c len) (hj : j ≤ 3) (m : Memory) :
    bufRead c len m (4 * k + j) = .ok (Memory.read m (4 * k + (3 - j))) := by
  have hin : swz (4 * k + j) < bound c len := by
    rw [swz_group hj]
    omega
  rw [bufRead_ok hin, swz_group hj]

/-- Settles O9: the checked reads see the group's physical bytes from the last to the first, and each of them is the byte the host
wrote there. -/
theorem logicalStreamIsBigEndian : Obligations.LogicalStreamIsBigEndian := by
  intro c len k m w hm hb m'
  have h0 := Memory.write_wf hm (4 * k) (w.extractLsb' 0 8)
  have h1 := Memory.write_wf h0 (4 * k + 1) (w.extractLsb' 8 8)
  have h2 := Memory.write_wf h1 (4 * k + 2) (w.extractLsb' 16 8)
  have hread (q : Nat) : Memory.read m' q = if q = 4 * k + 3 then w.extractLsb' 24 8 else if q = 4 * k + 2 then w.extractLsb' 16 8
      else if q = 4 * k + 1 then w.extractLsb' 8 8 else if q = 4 * k then w.extractLsb' 0 8 else Memory.read m q := by
    rw [Memory.read_write h2, Memory.read_write h1, Memory.read_write h0, Memory.read_write hm]
  refine ⟨?_, ?_, ?_, ?_⟩
  · exact (bufRead_group hb (j := 0) (by decide) m').trans (by simp [hread])
  · exact (bufRead_group hb (j := 1) (by decide) m').trans (by simp [hread])
  · exact (bufRead_group hb (j := 2) (by decide) m').trans (by simp [hread])
  · exact (bufRead_group hb (j := 3) (by decide) m').trans (by simp [hread])

/-! ## What a reply leaves unchanged (R58, R61) -/

/-- `m'` has the bytes of `m` but, at most, at the swizzled indices below `n`. -/
def SameBeyond (n : Nat) (m m' : Memory) : Prop :=
  ∀ a, (∀ k, k < n → a ≠ swz k) → Memory.read m' a = Memory.read m a

theorem SameBeyond.refl (n : Nat) (m : Memory) : SameBeyond n m m := fun _ _ => rfl

theorem SameBeyond.exists_of_ne {n : Nat} {m m' : Memory} (h : SameBeyond n m m') {a : Nat}
    (hne : Memory.read m' a ≠ Memory.read m a) : ∃ k, k < n ∧ a = swz k := by
  by_contra hnone
  exact hne (h a fun k hk ha => hnone ⟨k, hk, ha⟩)

/-- A run of writes that succeeds met no index outside the bound. -/
theorem bufWriteFrom_inside {c : Config} {len i : Nat} {m m' : Memory} {vs : List Byte}
    (h : bufWriteFrom c len m i vs = .ok m') (k : Nat) (hk : k < vs.length) : swz (i + k) < bound c len := by
  induction k using Nat.strong_induction_on with
  | _ k ih =>
    by_contra hout
    have herr := bufWriteFrom_error (m := m) hk (fun j hj => ih j hj (hj.trans hk)) (Nat.not_lt.1 hout)
    cases h.symm.trans herr

theorem bufWriteFrom_sameBeyond {c : Config} {len n : Nat} {m m' : Memory} {vs : List Byte} (hm : m.wf = true)
    (hn : vs.length ≤ n) (h : bufWriteFrom c len m 0 vs = .ok m') : SameBeyond n m m' := by
  intro a ha
  obtain ⟨m₁, hok, -, -, hframe⟩ := bufWriteFrom_ok hm (bufWriteFrom_inside h)
  cases hok.symm.trans h
  exact hframe a fun k hk => by simpa using ha k (hk.trans_le hn)

/-- A reply of at most `n` bytes, written or ended by a fault. -/
theorem reply_sameBeyond {s t : State} {c : OpenCall} {len n : Nat} {vs : List Byte} (hm : s.buf.wf = true)
    (hn : vs.length ≤ n) (h : s.reply c len (bufWriteFrom s.cfg len s.buf 0 vs) = .next t) : SameBeyond n s.buf t.buf := by
  unfold State.reply at h
  split at h
  case h_1 r _ =>
    cases h
    exact .refl n s.buf
  case h_2 m hok =>
    cases h
    exact bufWriteFrom_sameBeyond hm hn hok

/-- A buffer command changes at most the bytes of the longer reply: the four of `RESET`, or the origin record. -/
theorem runBufCmd_sameBeyond {s t : State} {c : OpenCall} {len pos : Nat} {d : Device} (hin : s.inBufferCall c len pos d)
    (hv : d.variant = .standardController) (hm : s.buf.wf = true) {b : BufCmd} (h : runBufCmd b s = .next t) :
    SameBeyond (max 4 d.origin.length) s.buf t.buf := by
  cases b with
  | reset =>
    rw [runBufCmd, execReset, onBufferCommand_eq hin hv] at h
    exact reply_sameBeyond hm (Nat.le_max_left 4 _) h
  | origin =>
    rw [runBufCmd, execOrigin, onBufferCommand_eq hin hv] at h
    exact reply_sameBeyond hm (Nat.le_max_right 4 _) h
  | recalibrate =>
    rw [runBufCmd, execRecalibrate, onBufferCommand_eq hin hv] at h
    exact reply_sameBeyond hm (Nat.le_max_right 4 _) h
  | consoleSpecific =>
    rw [runBufCmd, execConsoleSpecific, onBufferCommand_eq hin hv] at h
    cases h
    exact .refl _ s.buf
  | unknown cmd =>
    rw [runBufCmd, execUnknownBuf, onBufferCommand_eq hin hv] at h
    cases h
    exact .refl _ s.buf

/-- A call that returns, or that a fault has ended, leaves the buffer as its command left it. -/
theorem whileOpen_returnCall_next {a : Answer} {t : State} (h : whileOpen a returnCall = .next t) :
    ∃ u, a = .next u ∧ t.buf = u.buf := by
  cases a with
  | fault f => cases h
  | refused r => cases h
  | next u =>
    refine ⟨u, rfl, ?_⟩
    cases hc : u.call with
    | none =>
      rw [whileOpen_closed hc] at h
      cases h
      rfl
    | some c =>
      rw [whileOpen_open hc] at h
      cases h
      rfl

/-- The processing after the trace hook: the buffer is kept by an empty call and by a command byte outside the bound, and otherwise
changed by the command alone. -/
theorem interpretBuffer_sameBeyond {s t : State} {port len : Nat} {d : Device} (hidle : s.idleOn .standardController port d)
    (hm : s.buf.wf = true) {es : List Event}
    (h : interpretBuffer port len (s.setCall { port := port, frame := .runBuffer len 0, events := es })
      { port := port, frame := .runBuffer len 0, events := es } = .next t) :
    SameBeyond (max 4 d.origin.length) s.buf t.buf := by
  unfold interpretBuffer at h
  split at h
  case isTrue =>
    cases h
    exact .refl _ s.buf
  case isFalse =>
    split at h
    case h_1 =>
      cases h
      exact .refl _ s.buf
    case h_2 cmd _ =>
      have ⟨_, _, hv, _⟩ := hidle
      obtain ⟨u, hu, hbuf⟩ := whileOpen_returnCall_next h
      have hframe := runBufCmd_sameBeyond (inBufferCall_open hidle len 1 es) hv hm hu
      exact hbuf ▸ hframe

/-- The frame of the call (R61): a refused or faulting entry keeps the buffer, and the trace hook only emits events. -/
theorem execStdRunBuffer_sameBeyond {s t : State} {port len : Nat} {d : Device} (hd : findDevice port s.devices = some d)
    (hm : s.buf.wf = true) (h : execStdRunBuffer port len s = .next t) : SameBeyond (max 4 d.origin.length) s.buf t.buf := by
  obtain ⟨d', hidle, hrun⟩ := receiver_next h
  have ⟨_, hd', _, _⟩ := hidle
  obtain rfl : d' = d := Option.some.inj (hd'.symm.trans hd)
  rcases enterRunBuffer_cases hidle (interpretBuffer port len) with
    ⟨-, hfault⟩ | ⟨k, -, -, -, hfault⟩ | ⟨es, -, -, -, hbody⟩
  · cases hfault.symm.trans hrun
    exact .refl _ s.buf
  · cases hfault.symm.trans hrun
    exact .refl _ s.buf
  · exact interpretBuffer_sameBeyond hidle hm (hbody.symm.trans hrun)

/-- Settles O10: a byte that differs lies inside the call's frame. -/
theorem stdRunBufferWritesOnlyReply : Obligations.StdRunBufferWritesOnlyReply :=
  fun _ _ _ _ _ _ hm hd h hne => (execStdRunBuffer_sameBeyond hd hm h).exists_of_ne hne

/-! ## The refusal of an overlong call (R60, R207) -/

/-- Between calls a raised fault changes the device's mark and the host's result, nothing else. -/
theorem raiseFault_of_idle {s : State} (hc : s.call = none) (port : Nat) (r : FaultReason) :
    s.raiseFault (some port) r =
      { s with devices := markFaulted port r s.devices, result := some (.faulted r) } := by
  rw [State.raiseFault, ← hc]

theorem enterRunBuffer_overlong {s : State} {port len : Nat} (hl : s.cfg.bufCap < len) (body : State → OpenCall → Answer) :
    enterRunBuffer port len s body = .next (s.raiseFault (some port) (.lengthOutOfRange len)) :=
  if_pos hl

/-- Settles O24: either variant's call goes through the length check of `enterRunBuffer` first. -/
theorem overlongCallIsRefused : Obligations.OverlongCallIsRefused := by
  intro s port len d hl
  refine ⟨fun hidle => ?_, fun hidle => ?_⟩
  · simp only [exec, execStdRunBuffer, receiver_ok.2 hidle, enterRunBuffer_overlong hl, raiseFault_of_idle hidle.1]
  · simp only [exec, execDummyRunBuffer, receiver_ok.2 hidle, enterRunBuffer_overlong hl, raiseFault_of_idle hidle.1]

end Sys2Proof.Machine
end

section
/-! The encoding (30_encoding.md): which row each decoder reads, stated once per row as an `↔`; what a field of an encoded direct word
holds; and the step's fetch of a call. The round trip, the decoding rules and the code counts are uses of these. -/

namespace Sys2Proof.Machine

open Sys2Proof

/-! ## The command byte (R72): one lemma per row -/

theorem decodeBuf_eq_reset_iff {c : Config} {b : Byte} : decodeBuf c b = .reset ↔ b = c.cmdReset := by
  unfold decodeBuf
  split_ifs <;> simp_all

theorem decodeBuf_eq_origin_iff {c : Config} {b : Byte} (h : c.cmdReset ≠ c.cmdOrigin) :
    decodeBuf c b = .origin ↔ b = c.cmdOrigin := by
  unfold decodeBuf
  split_ifs <;> simp_all

theorem decodeBuf_eq_recalibrate_iff {c : Config} {b : Byte} (hreset : c.cmdReset ≠ c.cmdRecalibrate)
    (horigin : c.cmdOrigin ≠ c.cmdRecalibrate) : decodeBuf c b = .recalibrate ↔ b = c.cmdRecalibrate := by
  unfold decodeBuf
  split_ifs <;> simp_all

theorem decodeBuf_eq_consoleSpecific_iff {c : Config} {b : Byte} (hreset : c.cmdReset ≠ c.cmdConsoleSpecific)
    (horigin : c.cmdOrigin ≠ c.cmdConsoleSpecific) (hrecal : c.cmdRecalibrate ≠ c.cmdConsoleSpecific) :
    decodeBuf c b = .consoleSpecific ↔ b = c.cmdConsoleSpecific := by
  unfold decodeBuf
  split_ifs <;> simp_all

theorem decodeBuf_eq_unknown_iff {c : Config} {b : Byte} :
    decodeBuf c b = .unknown b ↔
      b ≠ c.cmdReset ∧ b ≠ c.cmdOrigin ∧ b ≠ c.cmdRecalibrate ∧ b ≠ c.cmdConsoleSpecific := by
  unfold decodeBuf
  split_ifs <;> simp_all

/-- Settles O3: the row lemmas, under the distinctness each of them needs. -/
theorem commandByteDecodesByRow : Obligations.CommandByteDecodesByRow := by
  refine ⟨fun c b hcodes => ?_, rfl, rfl, rfl, rfl⟩
  obtain ⟨hro, hrc, hrs, hoc, hos, hcs, -⟩ := (codesDistinct_iff c).1 hcodes
  exact ⟨decodeBuf_eq_reset_iff, decodeBuf_eq_origin_iff hro, decodeBuf_eq_recalibrate_iff hrc hoc,
    decodeBuf_eq_consoleSpecific_iff hrs hos hcs, decodeBuf_eq_unknown_iff.symm⟩

/-! ## The direct word (R74, R75): one lemma per row -/

theorem decodeDir_eq_nop_iff {c : Config} {w : Word} :
    decodeDir c w = .nop (directField w c.directLayout.p1Lo) (directField w c.directLayout.p2Lo) ↔
      directField w c.directLayout.cmdLo = c.dcmdNop := by
  simp only [decodeDir]
  split_ifs <;> simp_all

theorem decodeDir_eq_rumble_iff {c : Config} {w : Word} (h : c.dcmdNop ≠ c.dcmdRumble) :
    decodeDir c w = .rumble (directField w c.directLayout.p1Lo) (directField w c.directLayout.p2Lo) ↔
      directField w c.directLayout.cmdLo = c.dcmdRumble := by
  simp only [decodeDir]
  split_ifs <;> simp_all

theorem decodeDir_eq_unknown_iff {c : Config} {w : Word} :
    decodeDir c w = .unknown w ↔
      directField w c.directLayout.cmdLo ≠ c.dcmdNop ∧ directField w c.directLayout.cmdLo ≠ c.dcmdRumble := by
  simp only [decodeDir]
  split_ifs <;> simp_all

/-- Settles O4: the row lemmas at the default layout, whose fields start at bits 16, 0 and 8. -/
theorem directWordDecodesByRow : Obligations.DirectWordDecodesByRow := by
  refine ⟨fun c w hcodes hlayout => ?_, rfl, rfl, rfl⟩
  obtain ⟨-, -, -, -, -, -, hdir⟩ := (codesDistinct_iff c).1 hcodes
  have hnop := decodeDir_eq_nop_iff (c := c) (w := w)
  have hrumble := decodeDir_eq_rumble_iff (w := w) hdir
  have hunknown := decodeDir_eq_unknown_iff (c := c) (w := w)
  rw [hlayout] at hnop hrumble hunknown
  exact ⟨hnop.symm, hrumble.symm, hunknown.symm⟩

/-! ## The fields of an encoded direct word -/

theorem directField_or (x y : Word) (lo : Nat) : directField (x ||| y) lo = directField x lo ||| directField y lo :=
  BitVec.extractLsb'_or

theorem directField_shiftLeft_self (b : Byte) {lo : Nat} (h : lo ≤ 24) :
    directField (b.setWidth 32 <<< lo) lo = b := by
  refine BitVec.eq_of_getLsbD_eq fun i hi => ?_
  have hword : lo + i < 32 := by omega
  simp [directField, hi, hword]

/-- A byte at `lo` leaves a field apart from it at 0. -/
theorem directField_shiftLeft_apart (b : Byte) {lo lo' : Nat} (h : lo + 8 ≤ lo' ∨ lo' + 8 ≤ lo) :
    directField (b.setWidth 32 <<< lo) lo' = 0#8 := by
  refine BitVec.eq_of_getLsbD_eq fun i hi => ?_
  rcases h with hbelow | habove
  · have hbit : b.getLsbD (lo' + i - lo) = false := BitVec.getLsbD_of_ge b _ (by omega)
    simp [directField, hbit]
  · have hbit : lo' + i < lo := by omega
    simp [directField, hbit]

/-- Each field lies inside the word, and each two of them are apart. -/
theorem directLayout_disjoint_iff (l : DirectLayout) :
    l.disjoint = true ↔
      l.cmdLo ≤ 24 ∧ l.p1Lo ≤ 24 ∧ l.p2Lo ≤ 24 ∧ (l.cmdLo + 8 ≤ l.p1Lo ∨ l.p1Lo + 8 ≤ l.cmdLo) ∧
      (l.cmdLo + 8 ≤ l.p2Lo ∨ l.p2Lo + 8 ≤ l.cmdLo) ∧ (l.p1Lo + 8 ≤ l.p2Lo ∨ l.p2Lo + 8 ≤ l.p1Lo) := by
  simp only [DirectLayout.disjoint, Bool.and_eq_true, Bool.or_eq_true, decide_eq_true_eq, and_assoc]

/-- R74: a word built from three fields that do not overlap gives each of them back. -/
theorem directField_directWord {l : DirectLayout} (h : l.disjoint = true) (dcmd p1 p2 : Byte) :
    directField (directWord l dcmd p1 p2) l.cmdLo = dcmd ∧ directField (directWord l dcmd p1 p2) l.p1Lo = p1 ∧
      directField (directWord l dcmd p1 p2) l.p2Lo = p2 := by
  obtain ⟨hcmd, hp1, hp2, hcmd_p1, hcmd_p2, hp1_p2⟩ := (directLayout_disjoint_iff l).1 h
  simp only [directWord, directField_or]
  refine ⟨?_, ?_, ?_⟩
  · simp [directField_shiftLeft_self dcmd hcmd, directField_shiftLeft_apart p1 hcmd_p1.symm,
      directField_shiftLeft_apart p2 hcmd_p2.symm]
  · simp [directField_shiftLeft_apart dcmd hcmd_p1, directField_shiftLeft_self p1 hp1,
      directField_shiftLeft_apart p2 hp1_p2.symm]
  · simp [directField_shiftLeft_apart dcmd hcmd_p2, directField_shiftLeft_apart p1 hp1_p2,
      directField_shiftLeft_self p2 hp2]

/-! ## The round trip (R72, R74, R75, R82, R88) -/

theorem decodeDir_directWord_nop {c : Config} (hl : c.directLayout.disjoint = true) (p1 p2 : Byte) :
    decodeDir c (directWord c.directLayout c.dcmdNop p1 p2) = .nop p1 p2 := by
  obtain ⟨hcmd, hp1, hp2⟩ := directField_directWord hl c.dcmdNop p1 p2
  simpa only [hp1, hp2] using decodeDir_eq_nop_iff.2 hcmd

theorem decodeDir_directWord_rumble {c : Config} (hl : c.directLayout.disjoint = true) (hdir : c.dcmdNop ≠ c.dcmdRumble)
    (p1 p2 : Byte) : decodeDir c (directWord c.directLayout c.dcmdRumble p1 p2) = .rumble p1 p2 := by
  obtain ⟨hcmd, hp1, hp2⟩ := directField_directWord hl c.dcmdRumble p1 p2
  simpa only [hp1, hp2] using (decodeDir_eq_rumble_iff hdir).2 hcmd

theorem wf_unknownBuf_iff {c : Config} {b : Byte} :
    (Instr.unknownBuf b).wf c = true ↔
      b ≠ c.cmdReset ∧ b ≠ c.cmdOrigin ∧ b ≠ c.cmdRecalibrate ∧ b ≠ c.cmdConsoleSpecific := by
  simp only [Instr.wf, Bool.and_eq_true, bne_iff_ne, and_assoc]

theorem wf_unknownDir_iff {c : Config} {w : Word} :
    (Instr.unknownDir w).wf c = true ↔
      directField w c.directLayout.cmdLo ≠ c.dcmdNop ∧ directField w c.directLayout.cmdLo ≠ c.dcmdRumble := by
  simp only [Instr.wf, Bool.and_eq_true, bne_iff_ne]

theorem decode_buf8 {c : Config} {b : Byte} {cmd : BufCmd} (h : decodeBuf c b = cmd) :
    decode c (.buf8 b) = .ok cmd.toInstr := by
  rw [decode, h]

theorem decode_dir32 {c : Config} {w : Word} {cmd : DirCmd} (h : decodeDir c w = cmd) :
    decode c (.dir32 w) = .ok cmd.toInstr := by
  rw [decode, h]

/-- Settles O1: a command byte and a direct word decode by the row that holds their code, a catch-all is well-formed exactly when no
row does, and a method packet's selector and slots determine the call. -/
theorem decodeEncodeRoundTrip : Obligations.DecodeEncodeRoundTrip := by
  intro c i hcodes hl hwf
  obtain ⟨hro, hrc, hrs, hoc, hos, hcs, hdir⟩ := (codesDistinct_iff c).1 hcodes
  cases i with
  | reset => exact .inr ⟨_, rfl, decode_buf8 (decodeBuf_eq_reset_iff.2 rfl)⟩
  | origin => exact .inr ⟨_, rfl, decode_buf8 ((decodeBuf_eq_origin_iff hro).2 rfl)⟩
  | recalibrate => exact .inr ⟨_, rfl, decode_buf8 ((decodeBuf_eq_recalibrate_iff hrc hoc).2 rfl)⟩
  | consoleSpecific => exact .inr ⟨_, rfl, decode_buf8 ((decodeBuf_eq_consoleSpecific_iff hrs hos hcs).2 rfl)⟩
  | unknownBuf b => exact .inr ⟨_, rfl, decode_buf8 (decodeBuf_eq_unknown_iff.2 (wf_unknownBuf_iff.1 hwf))⟩
  | dnop p1 p2 => exact .inr ⟨_, rfl, decode_dir32 (decodeDir_directWord_nop hl p1 p2)⟩
  | rumble p1 p2 => exact .inr ⟨_, rfl, decode_dir32 (decodeDir_directWord_rumble hl hdir p1 p2)⟩
  | unknownDir w => exact .inr ⟨_, rfl, decode_dir32 (decodeDir_eq_unknown_iff.2 (wf_unknownDir_iff.1 hwf))⟩
  | stdRunBuffer | stdGetData | stdSendCommand | dummyRunBuffer | dummyGetData | dummySendCommand | construct =>
    exact .inr ⟨_, rfl, rfl⟩
  | traceHook => exact .inl ⟨rfl, rfl⟩

/-! ## Bits 31:24 of a direct word (R76) -/

theorem directField_eq_of_low24 {w w' : Word} (h : w.extractLsb' 0 24 = w'.extractLsb' 0 24) {lo : Nat} (hlo : lo ≤ 16) :
    directField w lo = directField w' lo := by
  have low (x : Word) : (x.extractLsb' 0 24).extractLsb' lo 8 = directField x lo := by
    rw [BitVec.extractLsb'_extractLsb'_of_le (by omega), directField]
  rw [← low w, h, low w']

/-- The decoder sees a direct word through its three fields; only the catch-all keeps the word itself. -/
theorem decodeDir_of_fields_eq {c : Config} {w w' : Word}
    (hcmd : directField w c.directLayout.cmdLo = directField w' c.directLayout.cmdLo)
    (hp1 : directField w c.directLayout.p1Lo = directField w' c.directLayout.p1Lo)
    (hp2 : directField w c.directLayout.p2Lo = directField w' c.directLayout.p2Lo) :
    decodeDir c w = decodeDir c w' ∨ (decodeDir c w = .unknown w ∧ decodeDir c w' = .unknown w') := by
  simp only [decodeDir, hcmd, hp1, hp2]
  split_ifs <;> simp

theorem exec_unknownDir {s : State} {c : OpenCall} {d : Device} (h : s.inDirectCall c d) (w : Word) :
    exec (.unknownDir w) s = .next (s.setCall (c.emit [.unrecognizedDirectCommand c.port w])) :=
  onDirectCommand_eq h _

/-- Settles O5: the three fields of the default layout lie in bits 23:0, and UNKNOWN_DIR reports the word as it is. -/
theorem directTopByteIgnored : Obligations.DirectTopByteIgnored := by
  refine ⟨fun w w' h => ?_, fun s c d w hin => exec_unknownDir hin w⟩
  exact decodeDir_of_fields_eq (directField_eq_of_low24 h (by decide)) (directField_eq_of_low24 h (by decide))
    (directField_eq_of_low24 h (by decide))

/-! ## The words of the spec's vectors -/

/-- Settles O2: each word is decoded by evaluation. -/
theorem specWordsDecode : Obligations.SpecWordsDecode :=
  ⟨rfl, rfl, rfl, rfl, rfl, rfl, rfl, rfl, rfl, rfl, rfl⟩

/-! ## How many codes are decoded by name (R84) -/

theorem ofNat8_eq_iff {n k : Nat} (hn : n < 256) (hk : k < 256) : BitVec.ofNat 8 n = BitVec.ofNat 8 k ↔ n = k := by
  rw [← BitVec.toNat_inj, BitVec.toNat_ofNat, BitVec.toNat_ofNat, Nat.mod_eq_of_lt hn, Nat.mod_eq_of_lt hk]

theorem decodeBuf_default_named_iff {n : Nat} (hn : n < 256) :
    decodeBuf .default (BitVec.ofNat 8 n) ≠ .unknown (BitVec.ofNat 8 n) ↔ n ∈ [0x00, 0x41, 0x42, 0xCE] := by
  rw [Ne, decodeBuf_eq_unknown_iff]
  simp only [Config.default, ne_eq, ofNat8_eq_iff hn, Nat.reduceLT, List.mem_cons, List.not_mem_nil]
  tauto

/-- The value of dcmd in a word that holds nothing else. -/
theorem directField_dcmd_only (n : Nat) : directField (BitVec.ofNat 32 (65536 * n)) 16 = BitVec.ofNat 8 n := by
  apply BitVec.eq_of_toNat_eq
  simp only [directField, BitVec.extractLsb'_toNat, BitVec.toNat_ofNat, Nat.shiftRight_eq_div_pow]
  omega

theorem decodeDir_default_named_iff {n : Nat} (hn : n < 256) :
    decodeDir .default (BitVec.ofNat 32 (65536 * n)) ≠ .unknown (BitVec.ofNat 32 (65536 * n)) ↔ n ∈ [0x00, 0x40] := by
  rw [Ne, decodeDir_eq_unknown_iff]
  simp only [Config.default, DirectLayout.default, directField_dcmd_only, ne_eq, ofNat8_eq_iff hn, Nat.reduceLT,
    List.mem_cons, List.not_mem_nil]
  tauto

/-- The numbers of a range with a property are a rising list when they have the same members. -/
theorem filter_range_eq_named {n : Nat} {P : Nat → Prop} [DecidablePred P] {named : List Nat}
    (hP : ∀ k < n, P k ↔ k ∈ named) (hrise : named.Pairwise (· < ·)) (hinside : ∀ k ∈ named, k < n) :
    (List.range n).filter (fun k => decide (P k)) = named := by
  refine (List.pairwise_lt_range.filter _).eq_of_mem_iff hrise fun k => ?_
  rw [List.mem_filter, List.mem_range, decide_eq_true_eq]
  exact ⟨fun ⟨hk, hPk⟩ => (hP k hk).1 hPk, fun hk => ⟨hinside k hk, (hP k (hinside k hk)).2 hk⟩⟩

/-- The numbers of a range that are not named are the rest. -/
theorem countP_range_eq_rest {n : Nat} {Q : Nat → Prop} [DecidablePred Q] {named : List Nat}
    (hnamed : (List.range n).filter (fun k => decide (¬ Q k)) = named) :
    (List.range n).countP (fun k => decide (Q k)) = n - named.length := by
  have hsplit := List.length_eq_countP_add_countP (fun k => decide (Q k)) (l := List.range n)
  simp only [decide_eq_true_eq, List.length_range] at hsplit
  rw [← hnamed, ← List.countP_eq_length_filter]
  omega

/-- Settles O6: the codes decoded by name are the listed ones, and UNKNOWN_BUF and UNKNOWN_DIR take the rest of the 256. -/
theorem decodedCodeCounts : Obligations.DecodedCodeCounts := by
  have hbuf := filter_range_eq_named (fun _ => decodeBuf_default_named_iff) (by decide) (by decide)
  have hdir := filter_range_eq_named (fun _ => decodeDir_default_named_iff) (by decide) (by decide)
  exact ⟨hbuf, countP_range_eq_rest hbuf, hdir, countP_range_eq_rest hdir⟩

/-! ## The method selectors (R82) -/

theorem decodeMethod_error_iff {v : Variant} {sel : Byte} {args : MethodArgs} {e : DecodeError} :
    decodeMethod v sel args = .error e ↔ 3 < sel.toNat ∧ e = .unknownSelector sel := by
  by_cases hsel : 3 < sel.toNat
  · have hne (k : Nat) (hk : k ≤ 3) : sel ≠ BitVec.ofNat 8 k := by
      rintro rfl
      rw [BitVec.toNat_ofNat] at hsel
      omega
    simp [decodeMethod, hne 0, hne 1, hne 2, hne 3, hsel, eq_comm]
  · have hrow : sel = 0#8 ∨ sel = 1#8 ∨ sel = 2#8 ∨ sel = 3#8 := by bv_omega
    rcases hrow with rfl | rfl | rfl | rfl <;> cases v <;> simp [decodeMethod]

/-- Settles O7: only a method packet can be rejected, and its selector decides. -/
theorem selectorsAboveThreeRejected : Obligations.SelectorsAboveThreeRejected := by
  intro c p e
  cases p with
  | buf8 cmd => simp [decode]
  | dir32 w => simp [decode]
  | method v sel args => simp [decode, decodeMethod_error_iff]

/-! ## The fetch of a call (R82, 40_device_interface.md R100 to R104) -/

theorem step_instr {s : State} {a : HostAct} {rest : List HostAct} {i : Instr} (hhost : s.host = a :: rest)
    (hfetch : fetch s a = .instr i) : step s = exec i (s.setHost rest) := by
  simp only [step, hhost, hfetch]

/-- A call on a port is decoded for the variant of the device there. -/
theorem step_call {s : State} {a : HostAct} {rest : List HostAct} {port : Nat} {sel : Byte} {args : MethodArgs}
    {d : Device} {v : Variant} {i : Instr} (hfetch : fetch s a = decodePacket s.cfg (callPacket s port sel args))
    (hd : findDevice port s.devices = some d) (hv : d.variant = v) (hi : decodeMethod v sel args = .ok i)
    (hhost : s.host = a :: rest) : step s = exec i (s.setHost rest) := by
  refine step_instr hhost ?_
  simp only [hfetch, callPacket, hd, hv, decodePacket, decode, hi]

/-- Settles O39: a construction names its variant itself; each of the three calls takes its operation from the device's variant. -/
theorem stepRunsDecodedInstruction : Obligations.StepRunsDecodedInstruction := by
  refine fun s rest d port len w v tr => ⟨fun hhost => step_instr hhost rfl, fun hd hv => ?_, fun hd hv => ?_⟩
  all_goals exact ⟨step_call rfl hd hv rfl, step_call rfl hd hv rfl, step_call rfl hd hv rfl⟩

end Sys2Proof.Machine
end

section
/-! The device interface (40_device_interface.md): which device receives a call, what the trace hook emits, the fields only `Construct`
sets, and that tracing changes diagnostics alone. The last is a commuting square: erasing diagnostics before an operation or after it
gives one answer. -/

namespace Sys2Proof.Machine

open Sys2Proof

/-! ## The receiver of a call (R104, 70_reset_and_hazards.md R238) -/

/-- The three operations a device of variant `v` runs for a call of the host on `port`. -/
def Instr.isCallTo (i : Instr) (v : Variant) (port len : Nat) (w : Word) : Prop :=
  v = .standardController ∧ (i = .stdRunBuffer port len ∨ i = .stdGetData port ∨ i = .stdSendCommand port w) ∨
    v = .dummy ∧ (i = .dummyRunBuffer port len ∨ i = .dummyGetData port ∨ i = .dummySendCommand port w)

/-- Each call is received by one variant. -/
theorem Instr.isCallOn.exists_isCallTo {i : Instr} {port len : Nat} {w : Word} (hi : Instr.isCallOn i port len w) :
    ∃ v, Instr.isCallTo i v port len w := by
  rcases hi with hi | hi | hi | hi | hi | hi
  · exact ⟨_, .inl ⟨rfl, .inl hi⟩⟩
  · exact ⟨_, .inl ⟨rfl, .inr (.inl hi)⟩⟩
  · exact ⟨_, .inl ⟨rfl, .inr (.inr hi)⟩⟩
  · exact ⟨_, .inr ⟨rfl, .inl hi⟩⟩
  · exact ⟨_, .inr ⟨rfl, .inr (.inl hi)⟩⟩
  · exact ⟨_, .inr ⟨rfl, .inr (.inr hi)⟩⟩

/-- A call no device of its variant receives stops with the receiver's fault. -/
theorem exec_callTo_of_receiver_error {i : Instr} {s : State} {v : Variant} {port len : Nat} {w : Word} {f : Fault}
    (hi : Instr.isCallTo i v port len w) (h : s.receiver v port = .error f) : exec i s = .fault f := by
  rcases hi with ⟨rfl, rfl | rfl | rfl⟩ | ⟨rfl, rfl | rfl | rfl⟩
  · simp only [exec, execStdRunBuffer, h]
  · simp only [exec, execStdGetData, h]
  · simp only [exec, execStdSendCommand, h]
  · simp only [exec, execDummyRunBuffer, h]
  · simp only [exec, execDummyGetData, h]
  · simp only [exec, execDummySendCommand, h]

/-- A call that answers a next state was received by a device of its variant. -/
theorem exec_callTo_received {i : Instr} {s t : State} {v : Variant} {port len : Nat} {w : Word}
    (hi : Instr.isCallTo i v port len w) (h : exec i s = .next t) : ∃ d, s.idleOn v port d := by
  cases hr : s.receiver v port with
  | error f => cases h.symm.trans (exec_callTo_of_receiver_error hi hr)
  | ok d => exact ⟨d, receiver_ok.1 hr⟩

theorem receiver_overlapping {s : State} {c : OpenCall} (hc : s.call = some c) (v : Variant) (port : Nat) :
    s.receiver v port = .error .overlappingCall := by
  simp only [State.receiver, hc]

theorem receiver_noDevice {s : State} {port : Nat} (hc : s.call = none) (hd : findDevice port s.devices = none)
    (v : Variant) : s.receiver v port = .error (.noDevice port) := by
  simp only [State.receiver, hc, State.deviceOf, State.liveDevice, hd]

theorem receiver_wrongVariant {s : State} {v : Variant} {port : Nat} {d : Device} (hc : s.call = none)
    (hd : findDevice port s.devices = some d) (hn : d.faulted = none) (hv : d.variant ≠ v) :
    s.receiver v port = .error (.wrongVariant port) := by
  have hlive : s.liveDevice port = .ok d := liveDevice_ok.2 ⟨hd, hn⟩
  simp only [State.receiver, hc, State.deviceOf, hlive, if_neg hv]

theorem exec_construct_overlapping {s : State} {c : OpenCall} (hc : s.call = some c) (v : Variant) (port : Nat) (tr : Bool) :
    exec (.construct v port tr) s = .fault .overlappingCall := by
  simp only [exec, execConstruct, hc]

/-- Settles O47: the receiver's three faults, and the check of `Construct`. -/
theorem callsNeedReceiver : Obligations.CallsNeedReceiver := by
  intro s v port len w tr i (hi : Instr.isCallTo i v port len w)
  refine ⟨fun hcall => ?_, fun hc hd => ?_, fun d hc hd hn hv => ?_⟩
  · obtain ⟨c, hc⟩ := Option.ne_none_iff_exists'.1 hcall
    exact ⟨exec_callTo_of_receiver_error hi (receiver_overlapping hc v port), exec_construct_overlapping hc v port tr⟩
  · exact exec_callTo_of_receiver_error hi (receiver_noDevice hc hd v)
  · exact exec_callTo_of_receiver_error hi (receiver_wrongVariant hc hd hn hv)

/-! ## The trace hook (R105, R107) -/

theorem traceLinesFuel_dropLast (fuel : Nat) (bs : List Byte) (h : bs.length ≤ fuel) :
    ∀ l ∈ (traceLinesFuel fuel bs).dropLast, l.length = 8 := by
  induction fuel generalizing bs with
  | zero => simp [traceLinesFuel]
  | succ fuel ih =>
    cases bs with
    | nil => simp [traceLinesFuel]
    | cons b rest =>
      rw [traceLinesFuel]
      have hrest : ((b :: rest).drop 8).length ≤ fuel := by simp at h ⊢; omega
      by_cases hnil : traceLinesFuel fuel ((b :: rest).drop 8) = []
      · rw [hnil]
        simp
      · intro l hl
        rw [List.dropLast_cons_of_ne_nil hnil, List.mem_cons] at hl
        rcases hl with rfl | hl
        · have hmore : (b :: rest).drop 8 ≠ [] := by
            intro hdrop
            rw [hdrop] at hnil
            cases fuel <;> exact hnil rfl
          have := List.length_pos_iff.2 hmore
          simp at this ⊢
          omega
        · exact ih _ hrest l hl

/-- Every line but the last is full. -/
theorem traceLines_dropLast (bs : List Byte) : ∀ l ∈ (traceLines bs).dropLast, l.length = 8 :=
  traceLinesFuel_dropLast _ bs (Nat.le_refl _)

/-- A run of reads that succeeds met no index outside the bound. -/
theorem bufReadFrom_inside {c : Config} {len i n : Nat} {m : Memory} {bs : List Byte}
    (h : bufReadFrom c len m i n = .ok bs) (k : Nat) (hk : k < n) : swz (i + k) < bound c len := by
  induction n generalizing i k bs with
  | zero => exact absurd hk (Nat.not_lt_zero k)
  | succ n ih =>
    by_cases h0 : swz i < bound c len
    · cases k with
      | zero => exact h0
      | succ k =>
        rw [bufReadFrom, bufRead_ok h0] at h
        dsimp only at h
        split at h
        case h_1 => cases h
        case h_2 bs' hrest =>
          have := ih hrest k (by omega)
          rwa [show i + (k + 1) = i + 1 + k by omega]
    · rw [bufReadFrom, bufRead_error (Nat.not_lt.1 h0)] at h
      cases h

theorem setCall_emit_nil {s : State} {c : OpenCall} (h : s.call = some c) : s.setCall (c.emit []) = s := by
  cases s
  simp only [State.setCall, OpenCall.emit, List.append_nil] at h ⊢
  rw [h]

theorem execTraceHook_off {s : State} {c : OpenCall} {len pos : Nat} {d : Device} (h : s.inBufferCall c len pos d)
    (hoff : d.traceEnabled = false) : execTraceHook s = .next s := by
  rcases execTraceHook_cases h with ⟨es, hnext, -, hnil⟩ | ⟨k, -, -, hon, -⟩
  · rw [hnext, hnil hoff, setCall_emit_nil h.1]
  · rw [hoff] at hon
    cases hon

/-- With tracing on, a byte outside the bound is never passed over. -/
theorem execTraceHook_outside {s : State} {c : OpenCall} {len pos : Nat} {d : Device} (h : s.inBufferCall c len pos d)
    (hon : d.traceEnabled = true) {k : Nat} (hk : k < len) (hout : bound s.cfg len ≤ swz k) :
    ∃ p, bound s.cfg len ≤ p ∧ execTraceHook s = .next (s.raiseFault (some c.port) (.bufferOutOfBounds p)) := by
  obtain ⟨hc, hf, hd, hn⟩ := h
  have hcall : s.bufferCall = .ok (c, len, pos) := by simp [State.bufferCall, hc, hf]
  have hlive : s.liveDevice c.port = .ok d := liveDevice_ok.2 ⟨hd, hn⟩
  rcases bufReadFrom_cases s.cfg len s.buf 0 len with ⟨bs, hok⟩ | ⟨j, -, hj, herr⟩
  · have := bufReadFrom_inside hok k hk
    rw [Nat.zero_add] at this
    omega
  · exact ⟨_, hj, by simp only [execTraceHook, hcall, hlive, hon, if_true, herr]⟩

/-- Settles O16: the lines are those of `traceLines`, over the logical bytes. -/
theorem traceHookEmitsLines : Obligations.TraceHookEmitsLines := by
  intro s c len pos d h
  refine ⟨execTraceHook_off h, fun hon ⟨k, hk, hout⟩ => execTraceHook_outside h hon hk hout, fun hon hin => ?_⟩
  have ⟨_, _, hd, _⟩ := h
  have hport : d.port = c.port := (findDevice_some hd).1
  refine ⟨traceLines (logicalBytes s.buf len), ?_, traceLines_flatten _, traceLines_length _, traceLines_dropLast _⟩
  have hrun := execTraceHook_eq h hin
  rw [hookEvents, if_pos hon, hport] at hrun
  exact hrun

/-! ## The fields only Construct sets (R110) -/

/-- What `Construct` sets in each instance: variant, port, trace flag and origin record. -/
def constructedFields (ds : List Device) : List (Variant × Nat × Bool × List Byte) :=
  ds.map fun d => (d.variant, d.port, d.traceEnabled, d.origin)

theorem constructedFields_markFaulted (port : Nat) (r : FaultReason) (ds : List Device) :
    constructedFields (markFaulted port r ds) = constructedFields ds := by
  simp [constructedFields, markFaulted]

/-- No operation changes the configuration. -/
theorem exec_cfg {i : Instr} {s t : State} (h : exec i s = .next t) : t.cfg = s.cfg := by
  rcases exec_cases h with ⟨port, len, w, hi⟩ | ⟨v, p, tr, rfl⟩ | ⟨-, hcfg, -⟩
  · obtain ⟨v, d, -, ⟨r, rfl, -⟩ | ⟨hret, -⟩⟩ := call_cases hi h
    · rfl
    · exact hret.cfg
  · obtain ⟨-, ⟨r, rfl, -⟩ | ⟨-, -, rfl⟩⟩ := construct_cases h <;> rfl
  · exact hcfg

/-- An operation other than `Construct` keeps the instances, but for one port's mark. -/
theorem exec_devices {i : Instr} {s t : State} (h : exec i s = .next t) (hi : ∀ v p tr, i ≠ .construct v p tr) :
    (t.devices = s.devices ∨ ∃ p r, t.devices = markFaulted p r s.devices) ∧ t.retired = s.retired := by
  rcases exec_cases h with ⟨port, len, w, hcall⟩ | ⟨v, p, tr, hconstruct⟩ | ⟨-, -, hretired, hdevices⟩
  · obtain ⟨v, d, -, ⟨r, rfl, -⟩ | ⟨hret, -⟩⟩ := call_cases hcall h
    · exact ⟨.inr ⟨port, r, rfl⟩, rfl⟩
    · exact ⟨.inl hret.devices, hret.retired⟩
  · exact absurd hconstruct (hi v p tr)
  · exact ⟨hdevices, hretired⟩

/-- Settles O44: an operation other than `Construct` can only set a fault mark, and a mark is no field `Construct` sets. -/
theorem onlyConstructSetsDeviceFields : Obligations.OnlyConstructSetsDeviceFields := by
  refine fun i s t h => ⟨exec_cfg h, fun hi => ?_⟩
  obtain ⟨hdevices | ⟨p, r, hdevices⟩, hretired⟩ := exec_devices h hi
  · rw [hdevices]
    exact ⟨rfl, hretired⟩
  · rw [hdevices]
    exact ⟨constructedFields_markFaulted p r s.devices, hretired⟩

/-! ## Erasing diagnostics (R108)

`State.withoutTrace` speaks of the state between calls; inside a call the events of the call in progress are erased too. -/

/-- The events that are not diagnostics. -/
def quietEvents (es : List Event) : List Event := es.filter fun e => !e.isTraceClass

/-- The call in progress without its trace-class events. -/
def OpenCall.quiet (c : OpenCall) : OpenCall := { c with events := quietEvents c.events }

/-- The state without diagnostics, those of the call in progress included. -/
def State.quiet (s : State) : State := { s.withoutTrace with call := s.call.map OpenCall.quiet }

/-- An answer whose next state is without diagnostics. -/
def quietAnswer : Answer → Answer
  | .next t => .next t.quiet
  | .fault f => .fault f
  | .refused r => .refused r

@[simp] theorem State.quiet_cfg (s : State) : s.quiet.cfg = s.cfg := rfl

@[simp] theorem State.quiet_buf (s : State) : s.quiet.buf = s.buf := rfl

theorem quiet_of_idle {s : State} (h : s.call = none) : s.quiet = s.withoutTrace := by
  simp [State.quiet, State.withoutTrace, h]

@[simp] theorem quietEvents_append (es es' : List Event) : quietEvents (es ++ es') = quietEvents es ++ quietEvents es' :=
  List.filter_append ..

theorem quietEvents_of_trace {es : List Event} (h : ∀ e ∈ es, e.isTraceClass = true) : quietEvents es = [] :=
  List.filter_eq_nil_iff.2 fun e he => by simp [h e he]

theorem hookEvents_isTraceClass (d : Device) (m : Memory) (len : Nat) : ∀ e ∈ hookEvents d m len, e.isTraceClass = true := by
  intro e he
  rw [hookEvents] at he
  split at he
  · obtain ⟨l, -, rfl⟩ := List.mem_map.1 he
    rfl
  · cases he

theorem hookEvents_withTrace_false (d : Device) (m : Memory) (len : Nat) : hookEvents (d.withTrace false) m len = [] := rfl

/-! Each update of the state commutes with erasing diagnostics. -/

theorem quiet_openCall (s : State) (port : Nat) (f : Frame) : (s.openCall port f).quiet = s.quiet.openCall port f := rfl

theorem quiet_setCall (s : State) (c : OpenCall) : (s.setCall c).quiet = s.quiet.setCall c.quiet := rfl

theorem quiet_setPolling (s : State) (p : Polling) : (s.setPolling p).quiet = s.quiet.setPolling p := rfl

theorem quiet_at (c : OpenCall) (len pos : Nat) : (c.at len pos).quiet = c.quiet.at len pos := rfl

theorem quiet_emit (c : OpenCall) (es : List Event) : (c.emit es).quiet = c.quiet.emit (quietEvents es) := by
  simp [OpenCall.quiet, OpenCall.emit]

theorem quiet_closeCall (s : State) (c : OpenCall) : (s.closeCall c).quiet = s.quiet.closeCall c.quiet := by
  simp only [State.quiet, State.withoutTrace, State.closeCall, List.filter_append]
  rfl

theorem withTrace_mark (port : Nat) (r : FaultReason) (d : Device) :
    (d.mark port r).withTrace false = (d.withTrace false).mark port r := by
  unfold Device.mark
  split
  case isTrue h => exact (if_pos h).symm
  case isFalse h => exact (if_neg h).symm

theorem quiet_raiseFault (s : State) (port : Nat) (r : FaultReason) :
    (s.raiseFault (some port) r).quiet = s.quiet.raiseFault (some port) r := by
  have hdevices : (markFaulted port r s.devices).map (Device.withTrace false) =
      markFaulted port r (s.devices.map (Device.withTrace false)) := by
    simp [markFaulted, withTrace_mark]
  simp only [State.quiet, State.withoutTrace, State.raiseFault, hdevices]
  rfl

/-- A raised fault ends either run alike. -/
theorem quietAnswer_raiseFault (s : State) (port : Nat) (r : FaultReason) :
    .next (s.quiet.raiseFault (some port) r) = quietAnswer (.next (s.raiseFault (some port) r)) := by
  rw [quietAnswer, quiet_raiseFault]

theorem quiet_drawSample (s : State) : s.drawSample.quiet = s.quiet.drawSample := by
  cases h : s.samples <;> simp [State.drawSample, State.quiet, State.withoutTrace, h]

theorem quiet_drawAvail (s : State) : s.drawAvail.quiet = s.quiet.drawAvail := by
  cases h : s.avails <;> simp [State.drawAvail, State.quiet, State.withoutTrace, h]

theorem quiet_reply (s : State) (c : OpenCall) (len : Nat) (x : Except FaultReason Memory) :
    s.quiet.reply c.quiet len x = quietAnswer (s.reply c len x) := by
  cases x with
  | error r => exact quietAnswer_raiseFault s c.port r
  | ok m => rfl

theorem quiet_returnCall (s : State) (c : OpenCall) : returnCall s.quiet c.quiet = quietAnswer (returnCall s c) :=
  congrArg Host.Outcome.next (quiet_closeCall s c).symm

theorem quiet_whileOpen_returnCall (a : Answer) :
    whileOpen (quietAnswer a) returnCall = quietAnswer (whileOpen a returnCall) := by
  cases a with
  | fault f => rfl
  | refused r => rfl
  | next t =>
    cases hc : t.call with
    | none =>
      have hquiet : t.quiet.call = none := by simp [State.quiet, hc]
      simp only [quietAnswer, whileOpen_closed hc, whileOpen_closed hquiet]
    | some c =>
      have hquiet : t.quiet.call = some c.quiet := by simp [State.quiet, hc]
      rw [quietAnswer, whileOpen_open hc, whileOpen_open hquiet, quiet_returnCall]

/-! The device an operation runs on is the same one, its trace flag off. -/

theorem findDevice_quiet {s : State} {port : Nat} {d : Device} (h : findDevice port s.devices = some d) :
    findDevice port s.quiet.devices = some (d.withTrace false) := by
  have hmap : findDevice port s.quiet.devices = (findDevice port s.devices).map (Device.withTrace false) := List.find?_map
  rw [hmap, h, Option.map_some]

theorem idleOn_quiet {s : State} {v : Variant} {port : Nat} {d : Device} (h : s.idleOn v port d) :
    s.quiet.idleOn v port (d.withTrace false) := by
  obtain ⟨hc, hd, hv, hn⟩ := h
  exact ⟨by simp [State.quiet, hc], findDevice_quiet hd, hv, hn⟩

theorem inBufferCall_quiet {s : State} {c : OpenCall} {len pos : Nat} {d : Device} (h : s.inBufferCall c len pos d) :
    s.quiet.inBufferCall c.quiet len pos (d.withTrace false) := by
  obtain ⟨hc, hf, hd, hn⟩ := h
  exact ⟨by simp [State.quiet, hc], hf, findDevice_quiet hd, hn⟩

theorem inDirectCall_quiet {s : State} {c : OpenCall} {d : Device} (h : s.inDirectCall c d) :
    s.quiet.inDirectCall c.quiet (d.withTrace false) := by
  obtain ⟨hc, hf, hd, hv, hn⟩ := h
  exact ⟨by simp [State.quiet, hc], hf, findDevice_quiet hd, hv, hn⟩

/-! ## Each operation commutes with erasing diagnostics -/

theorem quiet_setCall_emit_at (s : State) (c : OpenCall) (len : Nat) (es : List Event) :
    (s.setCall ((c.emit es).at len len)).quiet = s.quiet.setCall ((c.quiet.emit (quietEvents es)).at len len) := by
  rw [quiet_setCall, quiet_at, quiet_emit]

/-- A buffer command; only `CONSOLE_SPECIFIC` looks at the trace flag, and what it emits then is a diagnostic. -/
theorem quiet_runBufCmd {s : State} {c : OpenCall} {len pos : Nat} {d : Device} (h : s.inBufferCall c len pos d)
    (hv : d.variant = .standardController) (b : BufCmd) : runBufCmd b s.quiet = quietAnswer (runBufCmd b s) := by
  have hq := inBufferCall_quiet h
  cases b with
  | reset =>
    simp only [runBufCmd, execReset, onBufferCommand_eq h hv, onBufferCommand_eq hq hv]
    exact quiet_reply s c len _
  | origin =>
    simp only [runBufCmd, execOrigin, onBufferCommand_eq h hv, onBufferCommand_eq hq hv]
    exact quiet_reply s c len _
  | recalibrate =>
    simp only [runBufCmd, execRecalibrate, onBufferCommand_eq h hv, onBufferCommand_eq hq hv]
    exact quiet_reply s c len _
  | consoleSpecific =>
    have hdiag : quietEvents (if d.traceEnabled then [.consoleSpecificIgnored c.port s.cfg.cmdConsoleSpecific] else []) = [] := by
      split <;> rfl
    simp only [runBufCmd, execConsoleSpecific, onBufferCommand_eq h hv, onBufferCommand_eq hq hv, quietAnswer,
      quiet_setCall_emit_at, hdiag]
    rfl
  | unknown cmd =>
    simp only [runBufCmd, execUnknownBuf, onBufferCommand_eq h hv, onBufferCommand_eq hq hv, quietAnswer,
      quiet_setCall_emit_at]
    rfl

/-- A direct command, which looks at no trace flag and emits no diagnostic. -/
theorem quiet_runDirCmd {s : State} {c : OpenCall} {d : Device} (h : s.inDirectCall c d) (b : DirCmd) :
    runDirCmd b s.quiet = quietAnswer (runDirCmd b s) := by
  have hq := inDirectCall_quiet h
  cases b with
  | nop p1 p2 => simp only [runDirCmd, execDnop, onDirectCommand_eq h, onDirectCommand_eq hq, quietAnswer]
  | rumble p1 p2 =>
    have hkept : quietEvents (.rumbleProbe c.port (s.nextAvail c.port) ::
        (if s.nextAvail c.port then [.rumble c.port p1 p2] else [])) =
        .rumbleProbe c.port (s.nextAvail c.port) :: (if s.nextAvail c.port then [.rumble c.port p1 p2] else []) := by
      split <;> rfl
    simp only [runDirCmd, execRumble, onDirectCommand_eq h, onDirectCommand_eq hq, quietAnswer, quiet_setCall, quiet_emit,
      quiet_drawAvail, hkept]
    rfl
  | unknown w =>
    simp only [runDirCmd, execUnknownDir, onDirectCommand_eq h, onDirectCommand_eq hq, quietAnswer, quiet_setCall,
      quiet_emit]
    rfl

/-- The entry to `RunBuffer`: under a checked configuration the hook of a legal call reads inside the bound, so it only emits
diagnostics. -/
theorem quiet_enterRunBuffer {s : State} {v : Variant} {port len : Nat} {d : Device} (h : s.idleOn v port d)
    (hcfg : configCheck s.cfg = none) {body : State → OpenCall → Answer}
    (hbody : ∀ t c, t.inBufferCall c len 0 d → body t.quiet c.quiet = quietAnswer (body t c)) :
    enterRunBuffer port len s.quiet body = quietAnswer (enterRunBuffer port len s body) := by
  by_cases hl : s.cfg.bufCap < len
  · rw [enterRunBuffer_overlong hl, enterRunBuffer_overlong (s := s.quiet) hl]
    exact quietAnswer_raiseFault s port (.lengthOutOfRange len)
  · have hcap : len ≤ s.cfg.bufCap := Nat.not_lt.1 hl
    obtain ⟨hmod, -, hlen⟩ := bound_ok hcfg hcap
    have hin : ∀ k, k < len → swz k < bound s.cfg len := fun k hk => (swz_lt hmod k).2 (hk.trans_le hlen)
    rw [enterRunBuffer_eq h hcap hin, enterRunBuffer_eq (idleOn_quiet h) hcap hin,
      ← hbody _ _ (inBufferCall_open h len 0 _), quiet_setCall, OpenCall.quiet,
      quietEvents_of_trace (hookEvents_isTraceClass d s.buf len), hookEvents_withTrace_false]

theorem quiet_interpretBuffer {t : State} {c : OpenCall} {port len pos : Nat} {d : Device} (h : t.inBufferCall c len pos d)
    (hv : d.variant = .standardController) :
    interpretBuffer port len t.quiet c.quiet = quietAnswer (interpretBuffer port len t c) := by
  by_cases h0 : len = 0
  · simp only [interpretBuffer, if_pos h0, ← quiet_at, quiet_returnCall]
  · simp only [interpretBuffer, if_neg h0, State.quiet_cfg, State.quiet_buf]
    cases bufRead t.cfg len t.buf 0 with
    | error r => exact quietAnswer_raiseFault t port r
    | ok cmd =>
      obtain ⟨-, -, hd, hn⟩ := h
      have hcall : (t.setCall (c.at len 1)).inBufferCall (c.at len 1) len 1 d := ⟨rfl, rfl, hd, hn⟩
      simp only [← quiet_at, ← quiet_setCall, quiet_runBufCmd hcall hv, quiet_whileOpen_returnCall]

theorem quiet_dummyReply (port len : Nat) (t : State) (c : OpenCall) :
    dummyReply port len t.quiet c.quiet = quietAnswer (dummyReply port len t c) := by
  simp only [dummyReply, State.quiet_cfg, State.quiet_buf]
  cases wordWriteBE t.cfg len t.buf 0x00000000#32 with
  | error r => exact quietAnswer_raiseFault t port r
  | ok m => exact quiet_returnCall (t.setBuf m) (c.at len 4)

/-- The commuting square of a call on a device that receives it. -/
theorem quiet_exec {i : Instr} {s : State} {v : Variant} {port len : Nat} {w : Word} {d : Device}
    (hi : Instr.isCallTo i v port len w) (h : s.idleOn v port d) (hcfg : configCheck s.cfg = none) :
    exec i s.quiet = quietAnswer (exec i s) := by
  have hs := receiver_ok.2 h
  have hq := receiver_ok.2 (idleOn_quiet h)
  have ⟨_, _, hv, _⟩ := h
  rcases hi with ⟨rfl, rfl | rfl | rfl⟩ | ⟨rfl, rfl | rfl | rfl⟩
  · simp only [exec, execStdRunBuffer, hs, hq]
    exact quiet_enterRunBuffer h hcfg fun t c hin => quiet_interpretBuffer hin hv
  · simp only [exec, execStdGetData, hs, hq, ← quiet_returnCall, quiet_setPolling, quiet_drawSample]
    rfl
  · have hcall : (s.openCall port .sendCommand).inDirectCall { port := port, frame := .sendCommand, events := [] } d :=
      ⟨rfl, rfl, h.2⟩
    simp only [exec, execStdSendCommand, hs, hq, State.quiet_cfg, ← quiet_openCall, quiet_runDirCmd hcall,
      quiet_whileOpen_returnCall]
  · simp only [exec, execDummyRunBuffer, hs, hq]
    exact quiet_enterRunBuffer h hcfg fun t c _ => quiet_dummyReply port len t c
  · simp only [exec, execDummyGetData, hs, hq, quietAnswer, quiet_closeCall]
    rfl
  · simp only [exec, execDummySendCommand, hs, hq, quietAnswer, quiet_closeCall]
    rfl

/-- A call that answers a next state is over. -/
theorem exec_call_over {i : Instr} {s t : State} {port len : Nat} {w : Word} (hi : Instr.isCallOn i port len w)
    (h : exec i s = .next t) : t.call = none := by
  obtain ⟨v, d, -, ⟨r, rfl, -⟩ | ⟨hret, -⟩⟩ := call_cases hi h
  · rfl
  · exact hret.call

/-- Settles O54: no call is in progress before or after, so both sides of the square erase diagnostics of the history alone. -/
theorem tracingChangesNothingElse : Obligations.TracingChangesNothingElse := by
  intro s t port len w i hcfg (hi : Instr.isCallOn i port len w) h
  obtain ⟨v, hto⟩ := hi.exists_isCallTo
  obtain ⟨d, hidle⟩ := exec_callTo_received hto h
  calc exec i s.withoutTrace
      _ = exec i s.quiet := by rw [quiet_of_idle hidle.1]
      _ = quietAnswer (exec i s) := quiet_exec hto hidle hcfg
      _ = .next t.quiet := by rw [h, quietAnswer]
      _ = .next t.withoutTrace := by rw [quiet_of_idle (exec_call_over hi h)]

end Sys2Proof.Machine
end

section
/-! The standard controller's buffer commands (41_std_buffer_commands.md): where a command may run, what each one answers inside a
call, and the whole call built from the hook and the one command it decodes. That the bytes beyond the command byte are ignored is a
simulation: a run on one buffer is followed by the run on any other with the same command byte. -/

namespace Sys2Proof.Machine

open Sys2Proof

/-! ## The call a command needs (R120, 43_std_direct_commands.md R170, 40_device_interface.md R105) -/

/-- The operations that run inside a `RunBuffer` call. -/
def Instr.runsInBufferCall (i : Instr) (cmd : Byte) : Prop :=
  i = .reset ∨ i = .origin ∨ i = .recalibrate ∨ i = .consoleSpecific ∨ i = .unknownBuf cmd ∨ i = .traceHook

/-- The operations that run inside a `SendCommand` call. -/
def Instr.runsInDirectCall (i : Instr) (p1 p2 : Byte) (w : Word) : Prop :=
  i = .dnop p1 p2 ∨ i = .rumble p1 p2 ∨ i = .unknownDir w

theorem bufferCall_outside {s : State} (h : ∀ c len pos, s.call = some c → c.frame ≠ .runBuffer len pos) :
    s.bufferCall = .error .noOpenCall := by
  unfold State.bufferCall
  split
  case h_1 => rfl
  case h_2 c hc =>
    split
    case h_1 len pos hf => exact absurd hf (h c len pos hc)
    case h_2 => rfl
    case h_3 => rfl

theorem directCall_outside {s : State} (h : ∀ c, s.call = some c → c.frame ≠ .sendCommand) :
    s.directCall = .error .noOpenCall := by
  unfold State.directCall
  split
  case h_1 => rfl
  case h_2 c hc =>
    split
    case h_1 => rfl
    case h_2 => rfl
    case h_3 hf => exact absurd hf (h c hc)

theorem bufferCall_inside {s : State} {c : OpenCall} {len pos : Nat} (hc : s.call = some c)
    (hf : c.frame = .runBuffer len pos) : s.bufferCall = .ok (c, len, pos) := by
  simp only [State.bufferCall, hc, hf]

theorem directCall_inside {s : State} {c : OpenCall} (hc : s.call = some c) (hf : c.frame = .sendCommand) :
    s.directCall = .ok c := by
  simp only [State.directCall, hc, hf]

theorem liveDevice_faulted {s : State} {port : Nat} {d : Device} {r : FaultReason}
    (hd : findDevice port s.devices = some d) (hr : d.faulted = some r) :
    s.liveDevice port = .error (.deviceFaulted port r) := by
  simp only [State.liveDevice, hd, hr]

theorem deviceOf_of_liveDevice_error {s : State} {port : Nat} {f : Fault} (h : s.liveDevice port = .error f) (v : Variant) :
    s.deviceOf v port = .error f := by
  simp only [State.deviceOf, h]

theorem exec_of_bufferCall_error {i : Instr} {s : State} {cmd : Byte} {f : Fault} (hi : Instr.runsInBufferCall i cmd)
    (h : s.bufferCall = .error f) : exec i s = .fault f := by
  have hcmd (k) : s.onBufferCommand k = .fault f := by simp only [State.onBufferCommand, h]
  rcases hi with rfl | rfl | rfl | rfl | rfl | rfl
  · exact hcmd _
  · exact hcmd _
  · exact hcmd _
  · exact hcmd _
  · exact hcmd _
  · simp only [exec, execTraceHook, h]

theorem exec_of_bufferCall_liveDevice_error {i : Instr} {s : State} {cmd : Byte} {c : OpenCall} {len pos : Nat} {f : Fault}
    (hi : Instr.runsInBufferCall i cmd) (hb : s.bufferCall = .ok (c, len, pos)) (h : s.liveDevice c.port = .error f) :
    exec i s = .fault f := by
  have hcmd (k) : s.onBufferCommand k = .fault f := by
    simp only [State.onBufferCommand, hb, deviceOf_of_liveDevice_error h]
  rcases hi with rfl | rfl | rfl | rfl | rfl | rfl
  · exact hcmd _
  · exact hcmd _
  · exact hcmd _
  · exact hcmd _
  · exact hcmd _
  · simp only [exec, execTraceHook, hb, h]

theorem exec_of_onDirectCommand_fault {i : Instr} {s : State} {p1 p2 : Byte} {w : Word} {f : Fault}
    (hi : Instr.runsInDirectCall i p1 p2 w) (h : ∀ k, s.onDirectCommand k = .fault f) : exec i s = .fault f := by
  rcases hi with rfl | rfl | rfl
  · exact h _
  · exact h _
  · exact h _

/-- Settles O48: outside its call a command finds none, and inside it a faulted device takes no step. -/
theorem commandsNeedTheirCall : Obligations.CommandsNeedTheirCall := by
  intro s cmd p1 p2 w i
  refine ⟨fun hi hout => exec_of_bufferCall_error hi (bufferCall_outside hout), fun hi hout => ?_,
    fun c len pos d r hc hd hr => ⟨fun hf hi => ?_, fun hf hi => ?_⟩⟩
  · refine exec_of_onDirectCommand_fault hi fun k => ?_
    simp only [State.onDirectCommand, directCall_outside hout]
  · exact exec_of_bufferCall_liveDevice_error hi (bufferCall_inside hc hf) (liveDevice_faulted hd hr)
  · refine exec_of_onDirectCommand_fault hi fun k => ?_
    simp only [State.onDirectCommand, directCall_inside hc hf, deviceOf_of_liveDevice_error (liveDevice_faulted hd hr)]

/-! ## The bound of a checked configuration (20_memory.md R52, R59) -/

theorem bound_mod {c : Config} (hcfg : configCheck c = none) (len : Nat) : bound c len % 4 = 0 := by
  obtain ⟨-, -, hcap, -⟩ := (configCheck_eq_none_iff c).1 hcfg
  unfold bound
  split
  · exact hcap
  · exact roundup4_mod len

theorem swz_lt_bound {c : Config} (hcfg : configCheck c = none) (len i : Nat) : swz i < bound c len ↔ i < bound c len :=
  swz_lt (bound_mod hcfg len) i

/-- The bytes of a legal call lie inside the bound. -/
theorem swz_lt_bound_of_lt_len {c : Config} (hcfg : configCheck c = none) {len : Nat} (hl : len ≤ c.bufCap) (k : Nat)
    (hk : k < len) : swz k < bound c len :=
  (swz_lt_bound hcfg len k).2 (hk.trans_le (bound_ok hcfg hl).2.2)

/-- Where the last byte of a record of `n` bytes has room, so have all of them and the identifier word. -/
theorem max_le_bound_of_room {c : Config} (hcfg : configCheck c = none) {len n : Nat} (h : swz (n - 1) < bound c len) :
    max 4 n ≤ bound c len := by
  have hlast := (swz_lt_bound hcfg len (n - 1)).1 h
  have hmod := bound_mod hcfg len
  omega

/-! ## The commands inside a call (R122 to R126) -/

section
variable {s : State} {c : OpenCall} {len pos : Nat} {d : Device}

theorem exec_reset (h : s.inBufferCall c len pos d) (hv : d.variant = .standardController) :
    exec .reset s = s.reply c len (bufWriteFrom s.cfg len s.buf 0 (wordBytes s.cfg.idWord)) :=
  onBufferCommand_eq h hv _

/-- `ORIGIN` and `RECALIBRATE` have one meaning (R129). -/
theorem exec_copy {i : Instr} (hi : i = .origin ∨ i = .recalibrate) (h : s.inBufferCall c len pos d)
    (hv : d.variant = .standardController) : exec i s = s.reply c len (bufWriteFrom s.cfg len s.buf 0 d.origin) := by
  rcases hi with rfl | rfl
  · exact onBufferCommand_eq h hv _
  · exact onBufferCommand_eq h hv _

theorem exec_consoleSpecific (h : s.inBufferCall c len pos d) (hv : d.variant = .standardController) :
    exec .consoleSpecific s = .next (s.setCall ((c.emit (if d.traceEnabled
      then [.consoleSpecificIgnored c.port s.cfg.cmdConsoleSpecific] else [])).at len len)) :=
  onBufferCommand_eq h hv _

theorem exec_unknownBuf (h : s.inBufferCall c len pos d) (hv : d.variant = .standardController) (cmd : Byte) :
    exec (.unknownBuf cmd) s = .next (s.setCall ((c.emit [.unrecognizedBufferCommand c.port cmd]).at len len)) :=
  onBufferCommand_eq h hv _

/-- A reply with room for all its bytes: they stand at the swizzled indices, every other byte is kept, and the cursor is at `len`. -/
theorem reply_written (hm : s.buf.wf = true) {vs : List Byte} (hroom : ∀ k, k < vs.length → swz k < bound s.cfg len) :
    ∃ m, s.reply c len (bufWriteFrom s.cfg len s.buf 0 vs) =
        .next { s with buf := m, call := some { c with frame := .runBuffer len len } } ∧
      (∀ k (hk : k < vs.length), Memory.read m (swz k) = vs[k]) ∧
      ∀ a, (∀ k, k < vs.length → a ≠ swz k) → Memory.read m a = Memory.read s.buf a := by
  obtain ⟨m, hok, -, hread, hframe⟩ := bufWriteFrom_ok hm (i := 0) (by simpa using hroom)
  simp only [Nat.zero_add] at hread hframe
  exact ⟨m, by rw [hok]; rfl, hread, hframe⟩

end

/-- Settles O11: the reply is the identifier word, whose four bytes lie inside the bound of every call of length 1 or more. -/
theorem resetWritesIdWord : Obligations.ResetWritesIdWord := by
  intro s c len pos d h hv hm hcfg h1 hl
  have hmod := bound_mod hcfg len
  obtain ⟨-, -, hlen⟩ := bound_ok hcfg hl
  obtain ⟨m, hrun, hread, hframe⟩ := reply_written (c := c) hm (vs := wordBytes s.cfg.idWord) (len := len)
    fun k (hk : k < 4) => (swz_lt_bound hcfg len k).2 (by omega)
  refine ⟨m, (exec_reset h hv).trans hrun, hread 0 (by decide : 0 < 4), hread 1 (by decide : 1 < 4),
    hread 2 (by decide : 2 < 4), hread 3 (by decide : 3 < 4), fun a ha => hframe a fun k (hk : k < 4) => ?_⟩
  rw [swz_eq]
  omega

/-- Settles O12: the reply is the record, under either name. -/
theorem originAndRecalibrateCopyRecord : Obligations.OriginAndRecalibrateCopyRecord := by
  intro s c len pos d h hv hm hcfg _ hroom
  have hmax := max_le_bound_of_room hcfg hroom
  obtain ⟨m, hrun, hread, hframe⟩ := reply_written (c := c) hm (vs := d.origin) (len := len)
    fun k hk => (swz_lt_bound hcfg len k).2 (by omega)
  exact ⟨m, (exec_copy (.inl rfl) h hv).trans hrun, (exec_copy (.inr rfl) h hv).trans hrun, hread, hframe⟩

/-- Settles O13: the bound is a multiple of four, so the logical index `bound` is the first outside, and it is the last of its group
physically. -/
theorem originFaultsOutsideBound : Obligations.OriginFaultsOutsideBound := by
  intro s c len pos d i h hv hcfg hi
  refine ⟨fun hshort => ?_, fun hpolicy => ?_⟩
  · have hfirst : swz (0 + bound s.cfg len) = bound s.cfg len + 3 := by
      have hmod := bound_mod hcfg len
      rw [swz_eq]
      omega
    have herr := bufWriteFrom_error (m := s.buf) (i := 0) hshort
      (fun k hk => by simpa using (swz_lt_bound hcfg len k).2 hk) (by omega)
    rw [exec_copy hi h hv, herr, hfirst]
    rfl
  · have hbound : bound s.cfg len = roundup4 len := by simp only [bound, hpolicy]
    rw [hbound]
    unfold roundup4
    omega

/-- Settles O14: the one event is emitted exactly when tracing is on. -/
theorem consoleSpecificOnlyTraces : Obligations.ConsoleSpecificOnlyTraces := by
  intro s c len pos d h hv
  rw [exec_consoleSpecific h hv]
  cases d.traceEnabled with
  | false => simp [State.setCall, OpenCall.emit, OpenCall.at]
  | true => rfl

/-- Settles O15: the event does not look at the trace flag. -/
theorem unknownBufReportsOnce : Obligations.UnknownBufReportsOnce :=
  fun _ _ _ _ _ cmd h hv => exec_unknownBuf h hv cmd

/-! ## The whole call (R120, R121, R127, R128) -/

/-- A legal call of length 1 or more: the command decoded at logical index 0 runs after the hook, with the cursor at 1, and the call
returns unless a fault has ended it. -/
theorem exec_stdRunBuffer_eq {s : State} {port len : Nat} {d : Device} (h : s.idleOn .standardController port d) (h1 : 1 ≤ len)
    (hl : len ≤ s.cfg.bufCap) (hcfg : configCheck s.cfg = none) :
    exec (.stdRunBuffer port len) s =
      whileOpen (exec (decodeBuf s.cfg (Memory.read s.buf (swz 0))).toInstr
        (s.setCall { port := port, frame := .runBuffer len 1, events := hookEvents d s.buf len })) returnCall := by
  have hin := swz_lt_bound_of_lt_len hcfg hl
  have hread := bufRead_ok (m := s.buf) (hin 0 h1)
  simp only [exec, execStdRunBuffer, receiver_ok.2 h, enterRunBuffer_eq h hl hin, interpretBuffer,
    if_neg (Nat.one_le_iff_ne_zero.1 h1), State.setCall_cfg, State.setCall_buf, hread, runBufCmd_eq]
  rfl

/-- Settles O20: the command leaves the call open with its cursor at `len`, or a fault has ended it. -/
theorem stdRunBufferRunsDecodedCommand : Obligations.StdRunBufferRunsDecodedCommand := by
  intro s port len d h h1 hl hcfg
  have hcall := exec_stdRunBuffer_eq h h1 hl hcfg
  have ⟨_, _, hv, _⟩ := h
  rcases runBufCmd_cases (inBufferCall_open h len 1 (hookEvents d s.buf len)) hv
    (decodeBuf s.cfg (Memory.read s.buf (swz 0))) with ⟨m, es, hrun, -, -⟩ | ⟨k, -, -, hrun⟩
  · rw [runBufCmd_eq] at hrun
    refine ⟨_, hrun, .inr ⟨_, len, rfl, rfl, ?_⟩⟩
    rw [hcall, hrun, whileOpen_open rfl]
    rfl
  · rw [runBufCmd_eq] at hrun
    refine ⟨_, hrun, .inl ⟨rfl, ?_⟩⟩
    rw [hcall, hrun, whileOpen_closed rfl]

/-- Settles O21: the two ways a call ends. -/
theorem stdRunBufferResultIsLength : Obligations.StdRunBufferResultIsLength := by
  intro s t port len h
  obtain ⟨d, hidle, -⟩ := receiver_next h
  rcases execStdRunBuffer_cases hidle with ⟨r, hfault, -⟩ | ⟨u, hrun, -, -, hresult, -⟩
  · cases hfault.symm.trans h
    exact .inr ⟨r, rfl⟩
  · cases hrun.symm.trans h
    exact .inl hresult

/-- A returned call that drew nothing and polled nothing changed the buffer, the history and the result alone. -/
theorem Returned.eq_update {s t : State} {len : Nat} (h : Returned s t len) (hcall : s.call = none)
    (hkept : t.samples = s.samples ∧ t.avails = s.avails ∧ t.draws = s.draws ∧ t.polling = s.polling) :
    t = { s with buf := t.buf, events := t.events, result := t.result } := by
  obtain ⟨hcfg, hdevices, hretired, hhost, hover, -, -, -, -⟩ := h
  obtain ⟨hsamples, havails, hdraws, hpolling⟩ := hkept
  rw [← hcfg, ← hdevices, ← hretired, ← hhost, ← hsamples, ← havails, ← hdraws, ← hpolling, hcall, ← hover]

/-- Settles O22: with room for the record and for the identifier word, no access is outside the bound, so no fault is raised. -/
theorem stdRunBufferCompletes : Obligations.StdRunBufferCompletes := by
  intro s port len d h hl hcfg hroom
  have hmax := max_le_bound_of_room hcfg hroom
  obtain ⟨-, -, hlen⟩ := bound_ok hcfg hl
  rcases execStdRunBuffer_cases (len := len) h with
    ⟨r, -, ⟨-, hover⟩ | ⟨k, -, -, hout, hk⟩⟩ | ⟨t, hrun, -, hret, hresult, hkept, es, hevents, -⟩
  · omega
  · have := (swz_lt_bound hcfg len k).2 (by omega)
    omega
  · refine ⟨t.buf, es, hrun.trans (congrArg _ ?_)⟩
    rw [← hevents, ← hresult]
    exact hret.eq_update h.1 hkept

theorem hookEvents_zero (d : Device) (m : Memory) : hookEvents d m 0 = [] := by
  unfold hookEvents
  split <;> rfl

/-- A call that emitted nothing changes the host's result alone. -/
theorem closeCall_of_idle {s : State} (hcall : s.call = none) {c : OpenCall} (hnil : c.events = []) :
    s.closeCall c = { s with result := some c.result } := by
  rw [State.closeCall, hnil, List.append_nil, ← hcall]

/-- Settles O23: no byte lies in the call, so the hook emits nothing and no command byte is read. -/
theorem emptyBufferReturnsZero : Obligations.EmptyBufferReturnsZero := by
  intro s port d h
  have hin : ∀ k, k < 0 → swz k < bound s.cfg 0 := fun k hk => absurd hk (Nat.not_lt_zero k)
  simp only [exec, execStdRunBuffer, receiver_ok.2 h, enterRunBuffer_eq h (Nat.zero_le _) hin, hookEvents_zero, interpretBuffer,
    if_true, returnCall, closeCall_setCall]
  rw [closeCall_of_idle h.1 rfl, OpenCall.at_result]

/-! ## The bytes beyond the command byte (R130) -/

/-- Two buffers `m`, `m'` became `n`, `n'`: each byte is the same in both, or as it was in both. -/
def SameOrKept (m m' n n' : Memory) : Prop :=
  ∀ a, Memory.read n' a = Memory.read n a ∨ (Memory.read n a = Memory.read m a ∧ Memory.read n' a = Memory.read m' a)

theorem SameOrKept.refl (m m' : Memory) : SameOrKept m m' m m' := fun _ => .inr ⟨rfl, rfl⟩

/-- A byte written to both buffers is the same in both from then on. -/
theorem SameOrKept.of_write {m m' n n' : Memory} {p : Nat} {v : Byte} (hm : m.wf = true) (hm' : m'.wf = true)
    (h : SameOrKept (Memory.write m p v) (Memory.write m' p v) n n') : SameOrKept m m' n n' := by
  intro a
  rcases h a with hsame | ⟨hn, hn'⟩
  · exact .inl hsame
  · rw [Memory.read_write hm] at hn
    rw [Memory.read_write hm'] at hn'
    split at hn
    case isTrue ha => exact .inl (by rw [hn, hn', if_pos ha])
    case isFalse ha => exact .inr ⟨hn, by rw [hn', if_neg ha]⟩

/-- The same run of writes into two buffers: whether it succeeds does not depend on what they hold. -/
theorem bufWriteFrom_two {c : Config} {len i : Nat} {m m' : Memory} (vs : List Byte) (hm : m.wf = true) (hm' : m'.wf = true) :
    (∃ n n', bufWriteFrom c len m i vs = .ok n ∧ bufWriteFrom c len m' i vs = .ok n' ∧ SameOrKept m m' n n') ∨
    ∃ r, bufWriteFrom c len m i vs = .error r ∧ bufWriteFrom c len m' i vs = .error r := by
  induction vs generalizing m m' i with
  | nil => exact .inl ⟨m, m', rfl, rfl, .refl m m'⟩
  | cons v vs ih =>
    simp only [bufWriteFrom]
    by_cases hin : swz i < bound c len
    · simp only [bufWrite_ok hin]
      rcases ih (i := i + 1) (Memory.write_wf hm (swz i) v) (Memory.write_wf hm' (swz i) v) with ⟨n, n', hn, hn', hsame⟩ | hfault
      · exact .inl ⟨n, n', hn, hn', hsame.of_write hm hm'⟩
      · exact .inr hfault
    · simp only [bufWrite_error (Nat.not_lt.1 hin)]
      exact .inr ⟨_, rfl, rfl⟩

/-- `a'`, an answer on the buffer `m'`, follows `a`, an answer on the buffer `m`: where `a` is a next state, `a'` is the same state but
for the buffer. -/
def FollowsButBuffer (m m' : Memory) (a a' : Answer) : Prop :=
  ∀ t, a = .next t → ∃ n', a' = .next (t.setBuf n') ∧ SameOrKept m m' t.buf n'

/-- An operation that does not look at the buffer, and leaves it. -/
theorem FollowsButBuffer.of_kept {m m' : Memory} {t : State} (h : t.buf = m) :
    FollowsButBuffer m m' (.next t) (.next (t.setBuf m')) := by
  rintro _ ⟨⟩
  exact ⟨m', rfl, h ▸ .refl _ m'⟩

theorem FollowsButBuffer.reply {s : State} {m' : Memory} (hm : s.buf.wf = true) (hm' : m'.wf = true) (c : OpenCall) (len : Nat)
    (vs : List Byte) :
    FollowsButBuffer s.buf m' (s.reply c len (bufWriteFrom s.cfg len s.buf 0 vs))
      ((s.setBuf m').reply c len (bufWriteFrom s.cfg len m' 0 vs)) := by
  rcases bufWriteFrom_two (c := s.cfg) (len := len) (i := 0) vs hm hm' with ⟨n, n', hn, hn', hsame⟩ | ⟨r, hr, hr'⟩
  · rw [hn, hn']
    rintro _ ⟨⟩
    exact ⟨n', rfl, hsame⟩
  · rw [hr, hr']
    exact .of_kept rfl

/-- One and the same buffer command on either buffer. -/
theorem FollowsButBuffer.exec_bufCmd {s : State} {m' : Memory} {c : OpenCall} {len pos : Nat} {d : Device}
    (h : s.inBufferCall c len pos d) (hv : d.variant = .standardController) (hm : s.buf.wf = true) (hm' : m'.wf = true)
    (b : BufCmd) : FollowsButBuffer s.buf m' (exec b.toInstr s) (exec b.toInstr (s.setBuf m')) := by
  have h' : (s.setBuf m').inBufferCall c len pos d := h
  cases b with
  | reset =>
    rw [BufCmd.toInstr, exec_reset h hv, exec_reset h' hv]
    exact .reply hm hm' c len _
  | origin =>
    rw [BufCmd.toInstr, exec_copy (.inl rfl) h hv, exec_copy (.inl rfl) h' hv]
    exact .reply hm hm' c len _
  | recalibrate =>
    rw [BufCmd.toInstr, exec_copy (.inr rfl) h hv, exec_copy (.inr rfl) h' hv]
    exact .reply hm hm' c len _
  | consoleSpecific =>
    rw [BufCmd.toInstr, exec_consoleSpecific h hv, exec_consoleSpecific h' hv]
    exact .of_kept rfl
  | unknown cmd =>
    rw [BufCmd.toInstr, exec_unknownBuf h hv, exec_unknownBuf h' hv]
    exact .of_kept rfl

/-- Returning from the call, which leaves the buffer. -/
theorem FollowsButBuffer.whileOpen_returnCall {m m' : Memory} {a a' : Answer} (h : FollowsButBuffer m m' a a') :
    FollowsButBuffer m m' (whileOpen a returnCall) (whileOpen a' returnCall) := by
  intro t ht
  obtain ⟨u, rfl, hbuf⟩ := whileOpen_returnCall_next ht
  obtain ⟨n', rfl, hsame⟩ := h u rfl
  refine ⟨n', ?_, hbuf ▸ hsame⟩
  cases hc : u.call with
  | none =>
    rw [whileOpen_closed hc] at ht
    cases ht
    exact whileOpen_closed (t := t.setBuf n') hc returnCall
  | some c =>
    rw [whileOpen_open hc] at ht
    cases ht
    exact whileOpen_open (t := u.setBuf n') hc returnCall

theorem FollowsButBuffer.interpretBuffer {t : State} {m' : Memory} {c : OpenCall} {port len pos : Nat} {d : Device}
    (h : t.inBufferCall c len pos d) (hv : d.variant = .standardController) (hm : t.buf.wf = true) (hm' : m'.wf = true)
    (hcmd : Memory.read t.buf (swz 0) = Memory.read m' (swz 0)) :
    FollowsButBuffer t.buf m' (interpretBuffer port len t c) (interpretBuffer port len (t.setBuf m') c) := by
  by_cases h0 : len = 0
  · simp only [Machine.interpretBuffer, if_pos h0]
    exact .of_kept rfl
  · simp only [Machine.interpretBuffer, if_neg h0, State.setBuf_cfg, State.setBuf_buf]
    by_cases hin : swz 0 < bound t.cfg len
    · obtain ⟨-, -, hd, hn⟩ := h
      have hcall : (t.setCall (c.at len 1)).inBufferCall (c.at len 1) len 1 d := ⟨rfl, rfl, hd, hn⟩
      simp only [bufRead_ok hin, hcmd, runBufCmd_eq]
      exact (FollowsButBuffer.exec_bufCmd hcall hv hm hm' _).whileOpen_returnCall
    · simp only [bufRead_error (Nat.not_lt.1 hin)]
      exact .of_kept rfl

/-- With tracing off the entry to `RunBuffer` is the length check alone. -/
theorem enterRunBuffer_off {s : State} {v : Variant} {port len : Nat} {d : Device} (h : s.idleOn v port d)
    (hoff : d.traceEnabled = false) (hl : len ≤ s.cfg.bufCap) (body : State → OpenCall → Answer) :
    enterRunBuffer port len s body =
      body (s.openCall port (.runBuffer len 0)) { port := port, frame := .runBuffer len 0, events := [] } := by
  have hhook := execTraceHook_off (inBufferCall_open h len 0 []) hoff
  rw [enterRunBuffer, if_neg (Nat.not_lt.2 hl)]
  exact (congrArg (whileOpen · body) hhook).trans (whileOpen_open rfl body)

/-- The whole call on either buffer. -/
theorem FollowsButBuffer.exec_stdRunBuffer {s : State} {m' : Memory} {port len : Nat} {d : Device}
    (h : s.idleOn .standardController port d) (hoff : d.traceEnabled = false) (hm : s.buf.wf = true) (hm' : m'.wf = true)
    (hcmd : Memory.read s.buf (swz 0) = Memory.read m' (swz 0)) :
    FollowsButBuffer s.buf m' (exec (.stdRunBuffer port len) s) (exec (.stdRunBuffer port len) (s.setBuf m')) := by
  have h' : (s.setBuf m').idleOn .standardController port d := h
  simp only [exec, execStdRunBuffer, receiver_ok.2 h, receiver_ok.2 h']
  by_cases hl : s.cfg.bufCap < len
  · rw [enterRunBuffer_overlong hl, enterRunBuffer_overlong (s := s.setBuf m') hl]
    exact .of_kept rfl
  · have ⟨_, _, hv, _⟩ := h
    rw [enterRunBuffer_off h hoff (Nat.not_lt.1 hl), enterRunBuffer_off h' hoff (Nat.not_lt.1 hl)]
    exact .interpretBuffer (t := s.openCall port (.runBuffer len 0)) (inBufferCall_open h len 0 []) hv hm hm' hcmd

/-- Settles O25: the second run is the first one but for the buffer. -/
theorem bytesBeyondCommandAreIgnored : Obligations.BytesBeyondCommandAreIgnored := by
  intro s t t' m' port len d h hoff hm hm' hcmd hrun hrun'
  obtain ⟨n', hfollow, hsame⟩ := FollowsButBuffer.exec_stdRunBuffer h hoff hm hm' hcmd t hrun
  obtain rfl : t' = t.setBuf n' := Host.Outcome.next.inj (hrun'.symm.trans hfollow)
  exact ⟨rfl, hsame⟩

end Sys2Proof.Machine
end

section
/-! The polling words (42_std_polling.md): `Hi` and `Low` bit by bit, the one sample a `GetData` of the standard controller draws, and
the oracle answers each call of the standard controller takes. -/

namespace Sys2Proof.Machine

open Sys2Proof

/-! ## The Hi word (R150, R151, R153) -/

/-- R34: the fixed part of `Hi` is bit 23 alone. -/
theorem combinedWithOrigin_eq_twoPow : combinedWithOrigin = BitVec.twoPow 32 23 := rfl

/-- R150: where each bit of `Hi` comes from. A field's bit at or above its width is 0. -/
theorem getLsbD_packHi (x : InputSample) {i : Nat} (hi : i < 32) :
    (packHi x).getLsbD i = (x.stickY.getLsbD i || (!decide (i < 8) && x.stickX.getLsbD (i - 8)) ||
      (!decide (i < 16) && x.buttons.getLsbD (i - 16)) || decide (23 = i)) := by
  have horigin : combinedWithOrigin.getLsbD i = decide (23 = i) := by
    rw [combinedWithOrigin_eq_twoPow, BitVec.getLsbD_twoPow]
    simp
  have hX : i - 8 < 32 := by omega
  have hbuttons : i - 16 < 32 := by omega
  simp only [packHi, BitVec.getLsbD_or, BitVec.getLsbD_shiftLeft, BitVec.getLsbD_setWidth, horigin, hi, hX, hbuttons, decide_true,
    Bool.true_and]

theorem getLsbD_packHi_stickY (x : InputSample) {i : Nat} (hi : i < 8) : (packHi x).getLsbD i = x.stickY.getLsbD i := by
  have h16 : i < 16 := by omega
  have h23 : 23 ≠ i := by omega
  rw [getLsbD_packHi x (by omega)]
  simp [hi, h16, h23]

theorem getLsbD_packHi_stickX (x : InputSample) {i : Nat} (hi : i < 8) :
    (packHi x).getLsbD (8 + i) = x.stickX.getLsbD i := by
  have h16 : 8 + i < 16 := by omega
  have h23 : 23 ≠ 8 + i := by omega
  rw [getLsbD_packHi x (by omega), BitVec.getLsbD_of_ge x.stickY (8 + i) (by omega)]
  simp [h16, h23]

/-- Every button but `buttons[7]`, in whose place the fixed bit stands. -/
theorem getLsbD_packHi_buttons (x : InputSample) {i : Nat} (hi : i < 16) (h7 : i ≠ 7) :
    (packHi x).getLsbD (16 + i) = x.buttons.getLsbD i := by
  have h8 : ¬16 + i < 8 := by omega
  have h23 : 23 ≠ 16 + i := by omega
  rw [getLsbD_packHi x (by omega), BitVec.getLsbD_of_ge x.stickY (16 + i) (by omega),
    BitVec.getLsbD_of_ge x.stickX (16 + i - 8) (by omega)]
  simp [h23]

/-- R153: the fixed bit hides `buttons[7]`. -/
theorem packHi_flip_button7 (x : InputSample) : packHi { x with buttons := x.buttons ^^^ 0x0080#16 } = packHi x := by
  refine BitVec.eq_of_getLsbD_eq fun i hi => ?_
  rw [getLsbD_packHi _ hi, getLsbD_packHi x hi]
  by_cases h23 : 23 = i
  · simp [h23]
  · by_cases h16 : i < 16
    · simp [h16]
    · have h7 : 7 ≠ i - 16 := by omega
      have hmask : (0x0080#16).getLsbD (i - 16) = false := by
        rw [show (0x0080#16) = BitVec.twoPow 16 7 from rfl, BitVec.getLsbD_twoPow]
        simp [h7]
      simp only [BitVec.getLsbD_xor, hmask, Bool.xor_false]

/-- Settles O28: each field is a run of the bits of `Hi`, and the fixed bit stands in the place of `buttons[7]`. -/
theorem hiWordBitByBit : Obligations.HiWordBitByBit := by
  refine ⟨fun x => ⟨?_, ?_, ?_, packHi_bit23 x, ?_⟩, packHi_flip_button7⟩
  · refine BitVec.eq_of_getLsbD_eq fun i hi => ?_
    simp [hi, getLsbD_packHi_stickY x hi]
  · refine BitVec.eq_of_getLsbD_eq fun i hi => ?_
    simp [hi, getLsbD_packHi_stickX x hi]
  · refine BitVec.eq_of_getLsbD_eq fun i hi => ?_
    simp [hi, getLsbD_packHi_buttons x (i := i) (by omega) (by omega)]
  · refine BitVec.eq_of_getLsbD_eq fun i hi => ?_
    have hbit := getLsbD_packHi_buttons x (i := 8 + i) (by omega) (by omega)
    rw [← Nat.add_assoc] at hbit
    simp [hi, hbit]

/-! ## The Low word (R150, R152) -/

theorem directField_byte_zero (b : Byte) : directField (b.setWidth 32) 0 = b := by
  simpa using directField_shiftLeft_self b (Nat.zero_le 24)

theorem directField_byte_above (b : Byte) {lo : Nat} (h : 8 ≤ lo) : directField (b.setWidth 32) lo = 0#8 := by
  simpa using directField_shiftLeft_apart b (lo := 0) (lo' := lo) (.inl (by omega))

/-- Settles O29: `Low` is four bytes in four places apart from one another. -/
theorem lowWordBitByBit : Obligations.LowWordBitByBit := by
  intro x
  change directField (packLow x) 0 = _ ∧ directField (packLow x) 8 = _ ∧ directField (packLow x) 16 = _ ∧
    directField (packLow x) 24 = _
  simp [packLow, directField_or, directField_byte_zero, directField_byte_above, directField_shiftLeft_self,
    directField_shiftLeft_apart]

/-! ## The sample GetData draws (R150, R154 to R157) -/

/-- Settles O27: the call opens and closes in one step, so between calls the draw is all that changes besides the host's view. -/
theorem stdGetDataPacksOneSample : Obligations.StdGetDataPacksOneSample := by
  intro s port d h
  have hcall : s.drawSample.call = none := s.drawSample_call.trans h.1
  simp only [exec, execStdGetData, receiver_ok.2 h, returnCall, State.closeCall, State.setPolling, State.drawSample_events, hcall]
  rfl

/-! ## The oracle answers a call takes (R156, 60_exceptions.md R214 and R216) -/

/-- One input answer is taken: the next decided one, or a free one where none is decided (D14). -/
theorem drawSample_takes_one (s : State) (port : Nat) :
    (∃ x, s.samples = x :: s.drawSample.samples ∧ s.drawSample.draws = s.draws ∧ s.nextSample port = x) ∨
      (s.samples = [] ∧ s.drawSample.samples = [] ∧ s.drawSample.draws = s.draws + 1 ∧
        s.nextSample port = Config.freeSample port s.draws) := by
  cases h : s.samples with
  | cons x rest => exact .inl ⟨x, by simp [h], by simp [State.drawSample, h], by simp [State.nextSample, h]⟩
  | nil => exact .inr ⟨rfl, by simp [h], by simp [State.drawSample, h], by simp [State.nextSample, h]⟩

/-- One availability answer is taken: the next decided one, or a free one where none is decided (D15). -/
theorem drawAvail_takes_one (s : State) :
    (∃ x, s.avails = x :: s.drawAvail.avails ∧ s.drawAvail.draws = s.draws) ∨
      (s.avails = [] ∧ s.drawAvail.avails = [] ∧ s.drawAvail.draws = s.draws + 1) := by
  cases h : s.avails with
  | cons x rest => exact .inl ⟨x, by simp [h], by simp [State.drawAvail, h]⟩
  | nil => exact .inr ⟨rfl, by simp [h], by simp [State.drawAvail, h]⟩

/-- Two states have the same oracle answers before them. -/
def SameOracles (s t : State) : Prop := t.samples = s.samples ∧ t.avails = s.avails ∧ t.draws = s.draws

theorem SameOracles.trans {s t u : State} (h : SameOracles s t) (h' : SameOracles t u) : SameOracles s u :=
  ⟨h'.1.trans h.1, h'.2.1.trans h.2.1, h'.2.2.trans h.2.2⟩

/-- `RUMBLE` takes one availability answer and nothing else of the oracles. -/
theorem runDirCmd_rumble_oracles {s t : State} {p1 p2 : Byte} (h : runDirCmd (.rumble p1 p2) s = .next t) :
    SameOracles s.drawAvail t := by
  obtain ⟨c, d, -, hrun⟩ := onDirectCommand_next h
  cases hrun
  exact ⟨rfl, rfl, rfl⟩

/-- A direct command other than `RUMBLE` takes no answer. -/
theorem runDirCmd_oracles_of_ne_rumble {s t : State} {b : DirCmd} (hb : ∀ p1 p2, b ≠ .rumble p1 p2)
    (h : runDirCmd b s = .next t) : SameOracles s t := by
  cases b with
  | nop p1 p2 =>
    obtain ⟨c, d, -, hrun⟩ := onDirectCommand_next h
    cases hrun
    exact ⟨rfl, rfl, rfl⟩
  | rumble p1 p2 => exact absurd rfl (hb p1 p2)
  | unknown w =>
    obtain ⟨c, d, -, hrun⟩ := onDirectCommand_next h
    cases hrun
    exact ⟨rfl, rfl, rfl⟩

/-- A `SendCommand` that returned left the oracles as the command of its word did. -/
theorem exec_stdSendCommand_oracles {s t : State} {port : Nat} {w : Word} (h : exec (.stdSendCommand port w) s = .next t) :
    ∃ u, runDirCmd (decodeDir s.cfg w) (s.openCall port .sendCommand) = .next u ∧ SameOracles u t := by
  obtain ⟨d, hidle⟩ := exec_callTo_received (len := 0) (.inl ⟨rfl, .inr (.inr rfl)⟩) h
  obtain ⟨u, es, -, -, hrun, hret⟩ := execStdSendCommand_eq (w := w) hidle
  cases hret.symm.trans h
  exact ⟨_, hrun, rfl, rfl, rfl⟩

theorem exec_stdSendCommand_rumble_oracles {s t : State} {port : Nat} {w : Word} {p1 p2 : Byte}
    (hdec : decodeDir s.cfg w = .rumble p1 p2) (h : exec (.stdSendCommand port w) s = .next t) : SameOracles s.drawAvail t := by
  obtain ⟨u, hrun, hsame⟩ := exec_stdSendCommand_oracles h
  have hdraw := runDirCmd_rumble_oracles (hdec ▸ hrun)
  rw [drawAvail_openCall] at hdraw
  exact hdraw.trans hsame

theorem exec_stdSendCommand_oracles_of_ne_rumble {s t : State} {port : Nat} {w : Word}
    (hdec : ∀ p1 p2, decodeDir s.cfg w ≠ .rumble p1 p2) (h : exec (.stdSendCommand port w) s = .next t) : SameOracles s t := by
  obtain ⟨u, hrun, hsame⟩ := exec_stdSendCommand_oracles h
  exact (runDirCmd_oracles_of_ne_rumble hdec hrun).trans hsame

/-- `SendCommand` takes no input answer, whatever its word. -/
theorem exec_stdSendCommand_samples {s t : State} {port : Nat} {w : Word} (h : exec (.stdSendCommand port w) s = .next t) :
    t.samples = s.samples := by
  by_cases hdec : ∃ p1 p2, decodeDir s.cfg w = .rumble p1 p2
  · obtain ⟨p1, p2, hdec⟩ := hdec
    exact (exec_stdSendCommand_rumble_oracles hdec h).1.trans s.drawAvail_samples
  · exact (exec_stdSendCommand_oracles_of_ne_rumble (fun p1 p2 he => hdec ⟨p1, p2, he⟩) h).1

/-- A `RunBuffer` of the standard controller takes no answer, whether it returns or faults. -/
theorem exec_stdRunBuffer_oracles {s t : State} {port len : Nat} (h : exec (.stdRunBuffer port len) s = .next t) :
    SameOracles s t := by
  obtain ⟨d, hidle⟩ := exec_callTo_received (w := 0#32) (.inl ⟨rfl, .inl rfl⟩) h
  rcases execStdRunBuffer_cases hidle with ⟨r, hfault, -⟩ | ⟨u, hrun, -, -, -, ⟨hsamples, havails, hdraws, -⟩, -⟩
  · cases hfault.symm.trans h
    exact ⟨rfl, rfl, rfl⟩
  · cases hrun.symm.trans h
    exact ⟨hsamples, havails, hdraws⟩

/-- Settles O56: `GetData` is one input draw, `SendCommand` what its command draws, and `RunBuffer` draws nothing. -/
theorem eachDrawTakesOneAnswer : Obligations.EachDrawTakesOneAnswer := by
  refine fun s t port len w => ⟨fun h => ?_, fun h => ?_, exec_stdRunBuffer_oracles⟩
  · obtain ⟨d, hidle⟩ := exec_callTo_received (len := 0) (w := 0#32) (.inl ⟨rfl, .inr (.inl rfl)⟩) h
    cases (stdGetDataPacksOneSample s port d hidle).symm.trans h
    exact ⟨s.drawSample_avails, drawSample_takes_one s port⟩
  · refine ⟨exec_stdSendCommand_samples h, fun ⟨p1, p2, hdec⟩ => ?_,
      fun hdec => (exec_stdSendCommand_oracles_of_ne_rumble hdec h).2⟩
    obtain ⟨-, havails, hdraws⟩ := exec_stdSendCommand_rumble_oracles hdec h
    rw [havails, hdraws]
    exact drawAvail_takes_one s

end Sys2Proof.Machine
end

section
/-! The standard controller's direct commands (43_std_direct_commands.md): what each one answers inside a `SendCommand` call, and the
whole call, which runs the one command its word decodes to. -/

namespace Sys2Proof.Machine

open Sys2Proof

/-! ## The commands inside a call (R171 to R173) -/

section
variable {s : State} {c : OpenCall} {d : Device}

theorem exec_dnop (h : s.inDirectCall c d) (p1 p2 : Byte) : exec (.dnop p1 p2) s = .next s :=
  onDirectCommand_eq h _

theorem exec_rumble (h : s.inDirectCall c d) (p1 p2 : Byte) :
    exec (.rumble p1 p2) s = .next (s.drawAvail.setCall (c.emit (.rumbleProbe c.port (s.nextAvail c.port) ::
      (if s.nextAvail c.port then [.rumble c.port p1 p2] else [])))) :=
  onDirectCommand_eq h _

end

/-- Settles O17: the command answers before it looks at a parameter. -/
theorem dnopDoesNothing : Obligations.DnopDoesNothing :=
  fun _ _ _ p1 p2 h => exec_dnop h p1 p2

/-- Settles O18: one draw decides both the probe's record and whether the parameters are forwarded. -/
theorem rumbleForwardsWhenAvailable : Obligations.RumbleForwardsWhenAvailable := by
  refine fun s c d p1 p2 h => ⟨fun hyes => ?_, fun hno => ?_⟩
  · rw [exec_rumble h, hyes]
    rfl
  · rw [exec_rumble h, hno]
    rfl

/-- Settles O19: the event carries the word as it came, and the call's events are all that changes. -/
theorem unknownDirReportsOnce : Obligations.UnknownDirReportsOnce :=
  fun _ _ _ w h => exec_unknownDir h w

/-! ## The whole call (R170, R174) -/

/-- An availability draw leaves everything but the oracles' own state. -/
theorem DrawnFrom.kept {s t : State} (h : DrawnFrom s t) :
    t.buf = s.buf ∧ t.devices = s.devices ∧ t.retired = s.retired ∧ t.cfg = s.cfg ∧ t.host = s.host ∧
      t.samples = s.samples ∧ t.polling = s.polling ∧ t.events = s.events := by
  rcases h with rfl | rfl
  · simp only [and_self]
  · simp only [State.drawAvail_buf, State.drawAvail_devices, State.drawAvail_retired, State.drawAvail_cfg, State.drawAvail_host,
      State.drawAvail_samples, State.drawAvail_polling, State.drawAvail_events, and_self]

/-- Settles O30: a direct command never ends its call, so the call returns with the command's events; besides them the command leaves
at most one availability draw. -/
theorem stdSendCommandRunsDecodedCommand : Obligations.StdSendCommandRunsDecodedCommand := by
  intro s port w d h
  obtain ⟨t, es, hdrawn, -, hcmd, hcall⟩ := execStdSendCommand_eq (w := w) h
  rw [runDirCmd_eq] at hcmd
  exact ⟨_, _, hcmd, rfl, hcall, hdrawn.kept⟩

end Sys2Proof.Machine
end

section
/-! The dummy device (44_dummy_device.md): its `RunBuffer` after the trace hook, the zero word it writes, and its two operations that
do nothing. -/

namespace Sys2Proof.Machine

open Sys2Proof

/-! ## The trace hook under any configuration (R105, R107) -/

/-- The hook emits the lines of all the call's bytes, or raises a fault; it never emits a part of them. -/
theorem execTraceHook_all_or_fault {s : State} {c : OpenCall} {len pos : Nat} {d : Device} (h : s.inBufferCall c len pos d) :
    execTraceHook s = .next (s.setCall (c.emit (hookEvents d s.buf len))) ∨
      ∃ r, execTraceHook s = .next (s.raiseFault (some c.port) r) := by
  by_cases hin : ∀ k, k < len → swz k < bound s.cfg len
  · exact .inl (execTraceHook_eq h hin)
  · simp only [not_forall, not_lt] at hin
    obtain ⟨k, hk, hout⟩ := hin
    cases ht : d.traceEnabled with
    | false =>
      rw [hookEvents, if_neg (by simp [ht]), setCall_emit_nil h.1]
      exact .inl (execTraceHook_off h ht)
    | true =>
      obtain ⟨p, -, hfault⟩ := execTraceHook_outside h ht hk hout
      exact .inr ⟨_, hfault⟩

/-- The entry to `RunBuffer` raises a fault, or the variant's own processing runs after the hook's events. -/
theorem enterRunBuffer_hooked_or_fault {s : State} {v : Variant} {port len : Nat} {d : Device} (h : s.idleOn v port d)
    (body : State → OpenCall → Answer) :
    enterRunBuffer port len s body =
        body (s.setCall { port := port, frame := .runBuffer len 0, events := hookEvents d s.buf len })
          { port := port, frame := .runBuffer len 0, events := hookEvents d s.buf len } ∨
      ∃ r, enterRunBuffer port len s body = .next (s.raiseFault (some port) r) := by
  by_cases hl : s.cfg.bufCap < len
  · exact .inr ⟨_, enterRunBuffer_overlong hl body⟩
  · rw [enterRunBuffer, if_neg hl]
    rcases execTraceHook_all_or_fault (inBufferCall_open h len 0 []) with hhook | ⟨r, hhook⟩
    · exact .inl ((congrArg (whileOpen · body) hhook).trans (whileOpen_open rfl body))
    · exact .inr ⟨r, (congrArg (whileOpen · body) hhook).trans (whileOpen_closed rfl body)⟩

theorem hookEvents_eq_map_trace (d : Device) (m : Memory) (len : Nat) :
    ∃ lines : List (List Byte), hookEvents d m len = lines.map (Event.trace d.port) := by
  unfold hookEvents
  split
  · exact ⟨_, rfl⟩
  · exact ⟨[], rfl⟩

/-! ## The zero word (R190) -/

/-- The first group lies inside the bound of a legal call, of one of length 1 or more under the Length policy. -/
theorem four_le_bound {c : Config} (hcfg : configCheck c = none) {len : Nat} (hl : len ≤ c.bufCap)
    (h1 : c.boundsPolicy = .length → 1 ≤ len) : 4 ≤ bound c len := by
  cases hpolicy : c.boundsPolicy with
  | capacity =>
    obtain ⟨-, -, -, hcap⟩ := (configCheck_eq_none_iff c).1 hcfg
    simpa only [bound, hpolicy] using hcap
  | length =>
    have hlen := (bound_ok hcfg hl).2.2
    have hmod := bound_mod hcfg len
    have := h1 hpolicy
    omega

/-- The zero word with room for it: physical bytes 0 to 3 become 0 and every other byte is kept. -/
theorem wordWriteBE_zero {c : Config} (hcfg : configCheck c = none) {len : Nat} (hroom : 4 ≤ bound c len) {m : Memory}
    (hm : m.wf = true) :
    ∃ m', wordWriteBE c len m 0x00000000#32 = .ok m' ∧ (∀ a, a < 4 → Memory.read m' a = 0x00#8) ∧
      ∀ a, 4 ≤ a → Memory.read m' a = Memory.read m a := by
  obtain ⟨m', hok, -, hread, hframe⟩ := bufWriteFrom_ok hm (c := c) (len := len) (i := 0) (vs := wordBytes 0x00000000#32)
    fun k (hk : k < 4) => (swz_lt_bound hcfg len (0 + k)).2 (by omega)
  simp only [Nat.zero_add] at hread hframe
  refine ⟨m', hok, fun a ha => ?_, fun a ha => hframe a fun k (hk : k < 4) => ?_⟩
  · have hzero : ∀ b ∈ wordBytes 0x00000000#32, b = 0x00#8 := by decide
    have hbyte := hread (swz a) ((swz_lt (b := 4) rfl a).2 ha)
    rw [swz_swz] at hbyte
    exact hbyte.trans (hzero _ (List.getElem_mem _))
  · have := (swz_lt (b := 4) rfl k).2 hk
    omega

/-! ## The whole call (R190, R193) -/

/-- A call whose bytes lie inside the bound runs the dummy's own processing after the hook. -/
theorem exec_dummyRunBuffer_eq {s : State} {port len : Nat} {d : Device} (h : s.idleOn .dummy port d) (hl : len ≤ s.cfg.bufCap)
    (hin : ∀ k, k < len → swz k < bound s.cfg len) :
    exec (.dummyRunBuffer port len) s =
      dummyReply port len (s.setCall { port := port, frame := .runBuffer len 0, events := hookEvents d s.buf len })
        { port := port, frame := .runBuffer len 0, events := hookEvents d s.buf len } := by
  simp only [exec, execDummyRunBuffer, receiver_ok.2 h, enterRunBuffer_eq h hl hin]

/-- The dummy's own processing returns with the events of the hook, or raises a fault. -/
theorem dummyReply_returned_or_fault (s : State) (port len : Nat) (c : OpenCall) :
    (∃ m, dummyReply port len (s.setCall c) c = .next ((s.setBuf m).closeCall (c.at len 4))) ∨
      ∃ r, dummyReply port len (s.setCall c) c = .next (s.raiseFault (some port) r) := by
  unfold dummyReply
  split
  · exact .inr ⟨_, rfl⟩
  · exact .inl ⟨_, rfl⟩

/-- A dummy's `RunBuffer`, under any configuration: it returns with the events of the hook, or raises a fault. -/
theorem exec_dummyRunBuffer_returned_or_fault {s : State} {port : Nat} {d : Device} (h : s.idleOn .dummy port d) (len : Nat) :
    (∃ m, exec (.dummyRunBuffer port len) s = .next ((s.setBuf m).closeCall
      { port := port, frame := .runBuffer len 4, events := hookEvents d s.buf len })) ∨
      ∃ r, exec (.dummyRunBuffer port len) s = .next (s.raiseFault (some port) r) := by
  simp only [exec, execDummyRunBuffer, receiver_ok.2 h]
  rcases enterRunBuffer_hooked_or_fault (len := len) h (dummyReply port len) with hbody | hfault
  · rw [hbody]
    exact dummyReply_returned_or_fault s port len _
  · exact .inr hfault

/-- Settles O31: the four bytes of the word lie inside the bound, and the cursor ends at 4 for every length. -/
theorem dummyRunBufferWritesZeroWord : Obligations.DummyRunBufferWritesZeroWord := by
  intro s port len d h hm hl hcfg h1
  obtain ⟨m, hok, hzero, hframe⟩ := wordWriteBE_zero hcfg (four_le_bound hcfg hl h1) hm
  refine ⟨m, ?_, hzero, hframe⟩
  simp only [exec_dummyRunBuffer_eq h hl (swz_lt_bound_of_lt_len hcfg hl), dummyReply, State.setCall_cfg, State.setCall_buf, hok]
  rw [State.closeCall, ← h.1]
  rfl

/-- Settles O32: under the Length policy the bound of an empty call is 0, so the word's first byte, at physical index 3, is outside
it. -/
theorem dummyEmptyCallFaultsUnderLength : Obligations.DummyEmptyCallFaultsUnderLength := by
  intro s port d h hpolicy
  have hbound : bound s.cfg 0 = 0 := by simp only [bound, hpolicy, roundup4]
  have hfault : wordWriteBE s.cfg 0 s.buf 0x00000000#32 = .error (.bufferOutOfBounds 3) :=
    bufWriteFrom_error (i := 0) (n := 0) (by decide) (fun k hk => absurd hk (Nat.not_lt_zero k)) (hbound.le.trans (Nat.zero_le _))
  have hin : ∀ k, k < 0 → swz k < bound s.cfg 0 := fun k hk => absurd hk (Nat.not_lt_zero k)
  simp only [exec_dummyRunBuffer_eq h (Nat.zero_le _) hin, dummyReply, State.setCall_cfg, State.setCall_buf, hfault,
    raiseFault_setCall, raiseFault_of_idle h.1]

/-! ## Polling and direct commands (R191, R192) -/

theorem exec_dummyGetData {s : State} {port : Nat} {d : Device} (h : s.idleOn .dummy port d) :
    exec (.dummyGetData port) s = .next { s with
      polling := some { hasNewData := false, hi := none, low := none }
      result := some .polled } := by
  have hcall : (s.setPolling { hasNewData := hasNewData .dummy, hi := none, low := none }).call = none := h.1
  simp only [exec, execDummyGetData, receiver_ok.2 h, closeCall_of_idle hcall]
  rfl

theorem exec_dummySendCommand {s : State} {port : Nat} {d : Device} (h : s.idleOn .dummy port d) (w : Word) :
    exec (.dummySendCommand port w) s = .next { s with result := some .sent } := by
  simp only [exec, execDummySendCommand, receiver_ok.2 h, closeCall_of_idle h.1]
  rfl

/-- Settles O33: both calls return with no event, so the host's view is all that changes. -/
theorem dummyPollAndSendDoNothing : Obligations.DummyPollAndSendDoNothing :=
  fun _ _ w _ h => ⟨exec_dummyGetData h, exec_dummySendCommand h w⟩

/-- Settles O34: the hook's lines are the only events of the three operations, and none of them asks an oracle. -/
theorem dummyEmitsOnlyTraceLines : Obligations.DummyEmitsOnlyTraceLines := by
  intro s t port len w i hi h
  obtain ⟨d, hidle⟩ := exec_callTo_received (.inr ⟨rfl, hi⟩) h
  rcases hi with rfl | rfl | rfl
  · rcases exec_dummyRunBuffer_returned_or_fault hidle len with ⟨m, hrun⟩ | ⟨r, hrun⟩
    · cases hrun.symm.trans h
      obtain ⟨lines, hlines⟩ := hookEvents_eq_map_trace d s.buf len
      have hport : d.port = port := (findDevice_some hidle.2.1).1
      exact ⟨⟨lines, by rw [State.closeCall_events, State.setBuf_events, hlines, hport]⟩, rfl, rfl, rfl⟩
    · cases hrun.symm.trans h
      exact ⟨⟨[], (List.append_nil _).symm⟩, rfl, rfl, rfl⟩
  · cases (exec_dummyGetData hidle).symm.trans h
    exact ⟨⟨[], (List.append_nil _).symm⟩, rfl, rfl, rfl⟩
  · cases (exec_dummySendCommand hidle w).symm.trans h
    exact ⟨⟨[], (List.append_nil _).symm⟩, rfl, rfl, rfl⟩

end Sys2Proof.Machine
end

section
/-! Exceptions (60_exceptions.md): what a step adds to the history, which calls add an error event, the error kinds and their numbers,
and what a raised fault leaves as it was. Each is a case analysis over the ways a call, a construction or a step can end. -/

namespace Sys2Proof.Machine

open Sys2Proof

/-! ## The history (R200, R209) -/

/-- The history of `t` is that of `s` with events added, the error-class ones among them being `errs`. -/
def AddsErrors (s t : State) (errs : List Event) : Prop :=
  ∃ es, t.events = s.events ++ es ∧ es.filter Event.isErrorClass = errs

theorem addsErrors_nil_of_events_eq {s t : State} (h : t.events = s.events) : AddsErrors s t [] :=
  ⟨[], by rw [h, List.append_nil], rfl⟩

/-- A construction, refused or not, emits no event. -/
theorem exec_construct_events {s t : State} {v : Variant} {port : Nat} {tr : Bool} (h : exec (.construct v port tr) s = .next t) :
    t.events = s.events := by
  obtain ⟨-, ⟨r, rfl, -⟩ | ⟨-, -, rfl⟩⟩ := construct_cases h
  · rfl
  · rfl

/-- A call that raises a fault adds nothing, and one that returns adds its own events. -/
theorem exec_call_adds_at_most_one_error {i : Instr} {s t : State} {port len : Nat} {w : Word} (hi : Instr.isCallOn i port len w)
    (h : exec i s = .next t) : ∃ errs, AddsErrors s t errs ∧ errs.length ≤ 1 := by
  obtain ⟨v, d, -, ⟨r, rfl, -⟩ | ⟨hret, -⟩⟩ := call_cases hi h
  · exact ⟨[], addsErrors_nil_of_events_eq rfl, Nat.zero_le 1⟩
  · obtain ⟨es, hevents, hone⟩ := hret.events
    exact ⟨_, ⟨es, hevents, rfl⟩, hone⟩

/-- Only a call of the host adds events, and its own at that. -/
theorem step_adds_at_most_one_error {s t : State} (h : step s = .next t) : ∃ errs, AddsErrors s t errs ∧ errs.length ≤ 1 := by
  have silent (heq : t.events = s.events) : ∃ errs, AddsErrors s t errs ∧ errs.length ≤ 1 :=
    ⟨[], addsErrors_nil_of_events_eq heq, Nat.zero_le 1⟩
  rcases step_cases h with ⟨-, rfl⟩ | ⟨a, rest, -, ⟨i, port, len, w, hi, he⟩ | ⟨v, port, tr, he⟩ | ⟨p, v, -, -, rfl⟩ | rfl⟩
  · exact silent rfl
  · exact exec_call_adds_at_most_one_error (s := s.setHost rest) hi he
  · exact silent (exec_construct_events (s := s.setHost rest) he)
  · exact silent rfl
  · exact silent rfl

/-- Settles O49: the error-class events a step adds are at most one. -/
theorem stepAppendsAtMostOneError : Obligations.StepAppendsAtMostOneError := by
  intro s t h
  obtain ⟨errs, ⟨es, hevents, rfl⟩, hone⟩ := step_adds_at_most_one_error h
  exact ⟨es, hevents, hone⟩

/-! ## No access outside the bound under the default configuration (R207, 20_memory.md R52, R59) -/

theorem resetOrigin_length (c : Config) : (resetOrigin c).length = c.originLen := by
  simp [resetOrigin]

/-- The record of a device is no longer than the configured one: a dummy's is empty. -/
theorem origin_length_le {c : Config} {d : Device} (h : d.asConstructed c) : d.origin.length ≤ c.originLen := by
  obtain ⟨-, horigin⟩ := h
  rw [horigin]
  split
  · exact (resetOrigin_length c).le
  · exact Nat.zero_le _

/-- The default policy bounds an access by the capacity, whatever the call's length. -/
theorem bound_default (len : Nat) : bound .default len = 128 := rfl

/-- Every index a call reaches, in its own bytes, in a four-byte reply or in the record, lies inside the default bound, the whole
capacity. -/
theorem swz_lt_bound_default {len k : Nat} {d : Device} (hd : d.asConstructed .default) (hl : len ≤ Config.default.bufCap)
    (hk : k < max len (max 4 d.origin.length)) : swz k < bound .default len := by
  have hlen : len ≤ 128 := hl
  have horigin : d.origin.length ≤ 12 := origin_length_le hd
  rw [bound_default, swz_lt rfl]
  omega

theorem exec_call_default_in_bounds {i : Instr} {s t : State} {port len : Nat} {w : Word} (hinv : s.Inv) (hcfg : s.cfg = .default)
    (hi : Instr.isCallOn i port len w) (h : exec i s = .next t) (p : Nat) :
    t.result ≠ some (.faulted (.bufferOutOfBounds p)) := by
  obtain ⟨v, d, ⟨-, hfind, -, -⟩, ⟨r, rfl, ⟨rfl, -⟩ | ⟨k, -, hl, hout, hk⟩⟩ | ⟨hret, -⟩⟩ := call_cases hi h
  · exact nofun
  · have hd := hinv.constructed d (List.mem_append_left _ (findDevice_some hfind).2)
    rw [hcfg] at hl hout hd
    exact absurd (swz_lt_bound_default hd hl hk) (Nat.not_lt.2 hout)
  · exact hret.result _

theorem exec_construct_in_bounds {s t : State} {v : Variant} {port : Nat} {tr : Bool} (h : exec (.construct v port tr) s = .next t)
    (p : Nat) : t.result ≠ some (.faulted (.bufferOutOfBounds p)) := by
  obtain ⟨-, ⟨r, rfl, hr⟩ | ⟨-, -, rfl⟩⟩ := construct_cases h
  · intro hresult
    cases hresult
    exact hr p rfl
  · exact nofun

/-- Settles O55: the invariant leaves no call in progress, so a command of its own has no next state; a call stays inside the default
bound, and `Construct` makes no access. -/
theorem defaultNeverOutOfBounds : Obligations.DefaultNeverOutOfBounds := by
  intro i s t p hinv hcfg h
  rcases exec_cases h with ⟨port, len, w, hi⟩ | ⟨v, port, tr, rfl⟩ | ⟨hopen, -⟩
  · exact exec_call_default_in_bounds hinv hcfg hi h p
  · exact exec_construct_in_bounds h p
  · exact absurd hinv.noCall hopen

/-! ## The error events of each call (R201, R202, R206) -/

theorem eq_of_decodeBuf_eq_unknown {c : Config} {b cmd : Byte} (h : decodeBuf c b = .unknown cmd) : cmd = b := by
  unfold decodeBuf at h
  split_ifs at h
  exact (BufCmd.unknown.inj h).symm

theorem eq_of_decodeDir_eq_unknown {c : Config} {w w' : Word} (h : decodeDir c w = .unknown w') : w' = w := by
  simp only [decodeDir] at h
  split_ifs at h
  exact (DirCmd.unknown.inj h).symm

/-- The command of a byte reports an error exactly when the byte matches none of the four codes. -/
theorem bufErrors_decodeBuf (c : Config) (port : Nat) (b : Byte) :
    bufErrors port (decodeBuf c b) = if decodeBuf c b = .unknown b then [.unrecognizedBufferCommand port b] else [] := by
  cases h : decodeBuf c b with
  | reset | origin | recalibrate | consoleSpecific => simp [bufErrors]
  | unknown cmd => simp [bufErrors, eq_of_decodeBuf_eq_unknown h]

/-- The command of a word reports an error exactly when the word's code matches neither of the two. -/
theorem dirErrors_decodeDir (c : Config) (port : Nat) (w : Word) :
    dirErrors port (decodeDir c w) = if decodeDir c w = .unknown w then [.unrecognizedDirectCommand port w] else [] := by
  cases h : decodeDir c w with
  | nop p1 p2 | rumble p1 p2 => simp [dirErrors]
  | unknown w' => simp [dirErrors, eq_of_decodeDir_eq_unknown h]

theorem exec_stdRunBuffer_addsErrors {s t : State} {port len : Nat} (h : exec (.stdRunBuffer port len) s = .next t) :
    AddsErrors s t (if t.result = some (.consumed len) ∧ 1 ≤ len ∧
        decodeBuf s.cfg (Memory.read s.buf (swz 0)) = .unknown (Memory.read s.buf (swz 0))
      then [.unrecognizedBufferCommand port (Memory.read s.buf (swz 0))] else []) := by
  obtain ⟨d, hidle⟩ := exec_callTo_received (w := 0#32) (.inl ⟨rfl, .inl rfl⟩) h
  rcases execStdRunBuffer_cases hidle with ⟨r, hfault, -⟩ | ⟨u, hrun, -, -, hresult, -, es, hevents, herrs⟩
  · cases hfault.symm.trans h
    rw [if_neg (by simp)]
    exact addsErrors_nil_of_events_eq rfl
  · cases hrun.symm.trans h
    refine ⟨es, hevents, herrs.trans ?_⟩
    by_cases h0 : len = 0
    · simp [h0]
    · simp [h0, hresult, bufErrors_decodeBuf, Nat.one_le_iff_ne_zero]

theorem exec_stdSendCommand_addsErrors {s t : State} {port : Nat} {w : Word} (h : exec (.stdSendCommand port w) s = .next t) :
    AddsErrors s t (if decodeDir s.cfg w = .unknown w then [.unrecognizedDirectCommand port w] else []) := by
  obtain ⟨d, hidle⟩ := exec_callTo_received (len := 0) (.inl ⟨rfl, .inr (.inr rfl)⟩) h
  obtain ⟨u, es, hdrawn, herrs, -, hcall⟩ := execStdSendCommand_eq (w := w) hidle
  cases hcall.symm.trans h
  obtain ⟨-, -, -, -, -, -, -, hevents⟩ := hdrawn.kept
  exact ⟨es, by rw [State.closeCall_events, hevents], by rw [herrs, dirErrors_decodeDir]⟩

theorem exec_stdGetData_addsErrors {s t : State} {port : Nat} (h : exec (.stdGetData port) s = .next t) : AddsErrors s t [] := by
  obtain ⟨d, hidle⟩ := exec_callTo_received (len := 0) (w := 0#32) (.inl ⟨rfl, .inr (.inl rfl)⟩) h
  cases (stdGetDataPacksOneSample s port d hidle).symm.trans h
  exact ⟨_, rfl, rfl⟩

theorem exec_dummy_addsErrors {i : Instr} {s t : State} {port len : Nat} {w : Word}
    (hi : i = .dummyRunBuffer port len ∨ i = .dummyGetData port ∨ i = .dummySendCommand port w) (h : exec i s = .next t) :
    AddsErrors s t [] := by
  obtain ⟨⟨lines, hevents⟩, -⟩ := dummyEmitsOnlyTraceLines s t port len w i hi h
  exact ⟨_, hevents, filter_error_of_trace (List.forall_mem_map.2 fun _ _ => rfl)⟩

/-- Settles O51: the error events of each call and of `Construct`. -/
theorem errorsOnlyFromUnknownCommands : Obligations.ErrorsOnlyFromUnknownCommands := by
  refine fun s t port len w v tr => ⟨exec_stdRunBuffer_addsErrors, exec_stdSendCommand_addsErrors, fun i hi h => ?_⟩
  rcases hi with rfl | hi | hi | hi | rfl
  · exact exec_stdGetData_addsErrors h
  · exact exec_dummy_addsErrors (len := len) (w := w) (.inl hi) h
  · exact exec_dummy_addsErrors (len := len) (w := w) (.inr (.inl hi)) h
  · exact exec_dummy_addsErrors (len := len) (w := w) (.inr (.inr hi)) h
  · exact addsErrors_nil_of_events_eq (exec_construct_events h)

/-! ## The other ports (R211, R220) -/

theorem exec_call_other_ports {i : Instr} {s t : State} {port q len : Nat} {w : Word} (hi : Instr.isCallOn i port len w)
    (h : exec i s = .next t) (hq : q ≠ port) : findDevice q t.devices = findDevice q s.devices := by
  obtain ⟨v, d, -, ⟨r, rfl, -⟩ | ⟨hret, -⟩⟩ := call_cases hi h
  · exact findDevice_mark_of_ne hq r s.devices
  · rw [hret.devices]

theorem exec_construct_other_ports {s t : State} {v : Variant} {port q : Nat} {tr : Bool}
    (h : exec (.construct v port tr) s = .next t) (hq : q ≠ port) : findDevice q t.devices = findDevice q s.devices := by
  obtain ⟨-, ⟨r, rfl, -⟩ | ⟨-, -, rfl⟩⟩ := construct_cases h
  · rfl
  · rw [State.putDevice_devices, findDevice_insert]
    exact if_neg hq

/-- Settles O52: a call marks its own port's device at most, and `Construct` replaces it at most. -/
theorem otherPortsAreUntouched : Obligations.OtherPortsAreUntouched := by
  intro s t port q len w v tr i hi h hq
  have hi' : Instr.isCallOn i port len w ∨ i = .construct v port tr := by simpa only [Instr.isCallOn, or_assoc] using hi
  rcases hi' with hi | rfl
  · exact exec_call_other_ports hi h hq
  · exact exec_construct_other_ports h hq

/-! ## A call that raises a fault (R207, R209) -/

theorem findDevice_mark_self {port : Nat} {ds : List Device} {d : Device} (h : findDevice port ds = some d) (r : FaultReason) :
    ∃ e, findDevice port (markFaulted port r ds) = some e ∧ e.faulted = some r := by
  refine ⟨d.mark port r, by rw [findDevice_mark, h, Option.map_some], ?_⟩
  rw [Device.mark_faulted, if_pos (findDevice_some h).1]

/-- Settles O53: of the two ways a call can end, only the raised fault has such a result. -/
theorem faultingCallHasNoEffect : Obligations.FaultingCallHasNoEffect := by
  intro s t port len w i r (hi : Instr.isCallOn i port len w) h hresult
  obtain ⟨v, d, ⟨hcall, hfind, -, -⟩, ⟨r', rfl, -⟩ | ⟨hret, -⟩⟩ := call_cases hi h
  · cases hresult
    exact ⟨raiseFault_of_idle hcall port r, findDevice_mark_self hfind r⟩
  · exact absurd hresult (hret.result r)

/-! ## The error kinds (R201, R202) -/

/-- Each error kind has its own number (D30). -/
theorem ErrorKind.number_injective : Function.Injective ErrorKind.number
  | .unrecognizedBufferCommand, .unrecognizedBufferCommand, _ => rfl
  | .unrecognizedDirectCommand, .unrecognizedDirectCommand, _ => rfl

theorem errorNumber_eq_number_iff {e : Event} {k : ErrorKind} : e.errorNumber = some k.number ↔ e.errorKind = some k :=
  (Option.map_injective ErrorKind.number_injective).eq_iff (b := some k)

theorem errorKind_eq_bufferCommand_iff {e : Event} :
    e.errorKind = some .unrecognizedBufferCommand ↔ ∃ port cmd, e = .unrecognizedBufferCommand port cmd := by
  cases e <;> simp [Event.errorKind]

theorem errorKind_eq_directCommand_iff {e : Event} :
    e.errorKind = some .unrecognizedDirectCommand ↔ ∃ port w, e = .unrecognizedDirectCommand port w := by
  cases e <;> simp [Event.errorKind]

/-- There is no third kind (R206). -/
theorem isErrorClass_iff {e : Event} :
    e.isErrorClass = true ↔ e.errorKind = some .unrecognizedBufferCommand ∨ e.errorKind = some .unrecognizedDirectCommand := by
  unfold Event.isErrorClass
  cases e.errorKind with
  | none => simp
  | some k => cases k <;> simp

/-- Settles O50: an event's number is that of its kind, and two kinds of event report one. -/
theorem errorKindsAreNumbered : Obligations.ErrorKindsAreNumbered := by
  have hbuffer (e : Event) : e.errorNumber = some 1 ↔ e.errorKind = some .unrecognizedBufferCommand :=
    errorNumber_eq_number_iff (k := .unrecognizedBufferCommand)
  have hdirect (e : Event) : e.errorNumber = some 2 ↔ e.errorKind = some .unrecognizedDirectCommand :=
    errorNumber_eq_number_iff (k := .unrecognizedDirectCommand)
  refine ⟨fun _ _ => rfl, fun _ _ => rfl, fun e => (hbuffer e).trans errorKind_eq_bufferCommand_iff,
    fun e => (hdirect e).trans errorKind_eq_directCommand_iff, fun e => ?_⟩
  rw [hbuffer, hdirect]
  exact isErrorClass_iff

end Sys2Proof.Machine
end

section
/-! Reset and hazards (70_reset_and_hazards.md): the machine at reset, the record and the instance `Construct` makes and what it
refuses, the host's read of the polling words, and a second `RunBuffer` on the reply of the first. -/

namespace Sys2Proof.Machine

open Sys2Proof

/-! ## The machine at reset (R232, R234) -/

/-- Settles O43: nothing is written, constructed, called or polled yet. -/
theorem resetMeetsInvariant : Obligations.ResetMeetsInvariant where
  bufWf := Memory.reset_wf
  bufInside := nofun
  ports := trivial
  constructed := nofun
  checked hne := absurd rfl hne
  noCall := rfl
  pollingLegal := nofun

/-! ## The reset record (R231) -/

/-- The named bytes of the reset record under the default offsets (D3). -/
def resetOriginHead : List Byte := [0x41#8, 0x00#8, 0x80#8, 0x80#8, 0x80#8, 0x80#8, 0x1F#8, 0x1F#8]

theorem resetOrigin_default_layout {c : Config} (hlayout : c.originLayout = .default) (hlen : 8 ≤ c.originLen) :
    resetOrigin c = resetOriginHead ++ List.replicate (c.originLen - 8) 0x00#8 := by
  obtain ⟨n, hn⟩ := Nat.exists_eq_add_of_le' hlen
  rw [resetOrigin, hlayout, hn, Nat.add_sub_cancel]
  rfl

/-- Settles O38: the eight named bytes, then zeros (D4). -/
theorem resetOriginBytes : Obligations.ResetOriginBytes := by
  intro c hlayout hlen
  have hrecord := resetOrigin_default_layout hlayout hlen
  refine ⟨resetOrigin_length c, (congrArg (List.take 8) hrecord).trans (List.take_left' rfl), fun i h hi => ?_⟩
  simp only [hrecord, List.getElem_append_right (as := resetOriginHead) hi, List.getElem_replicate]

/-! ## Construct (R230, R236) -/

/-- The instance a new one replaces, where there is one, joins the retired. -/
theorem State.putDevice_retired_eq_append (s : State) (d : Device) :
    (s.putDevice d).retired = s.retired ++ (findDevice d.port s.devices).toList := by
  rw [State.putDevice_retired]
  cases findDevice d.port s.devices with
  | none => exact (List.append_nil _).symm
  | some old => rfl

section
variable {s : State} {port : Nat}

theorem exec_construct_accepted (hcall : s.call = none) (hcfg : configCheck s.cfg = none) (hport : port < s.cfg.numPorts)
    (v : Variant) (tr : Bool) : exec (.construct v port tr) s = .next (s.putDevice (newDevice s.cfg v port tr)) := by
  simp only [exec, execConstruct, hcall, hcfg, if_neg (Nat.not_le.2 hport)]

theorem exec_construct_configRefused (hcall : s.call = none) {check : ConfigCheck} (hcfg : configCheck s.cfg = some check)
    (v : Variant) (port : Nat) (tr : Bool) :
    exec (.construct v port tr) s = .next (s.raiseFault none (.configRefused check)) := by
  simp only [exec, execConstruct, hcall, hcfg]

theorem exec_construct_portOutOfRange (hcall : s.call = none) (hcfg : configCheck s.cfg = none)
    (hport : s.cfg.numPorts ≤ port) (v : Variant) (tr : Bool) :
    exec (.construct v port tr) s = .next (s.raiseFault none (.portOutOfRange port)) := by
  simp only [exec, execConstruct, hcall, hcfg, if_pos hport]

end

/-- Between calls a fault with no device to mark changes the host's result alone. -/
theorem raiseFault_none_of_idle {s : State} (hcall : s.call = none) (r : FaultReason) :
    s.raiseFault none r = { s with result := some (.faulted r) } := by
  rw [State.raiseFault, ← hcall]

/-- Settles O35: the instance of `newDevice`, found where `insertDevice` puts it. -/
theorem constructPutsNewInstance : Obligations.ConstructPutsNewInstance := by
  intro s v port tr hcall hcfg hport
  refine ⟨_, _, newDevice s.cfg v port tr, exec_construct_accepted hcall hcfg hport v tr, rfl, rfl, rfl, rfl, ?_, ?_,
    fun q hq => ?_, State.putDevice_retired_eq_append s _⟩
  · rintro rfl
    rfl
  · exact (findDevice_insert port _ s.devices).trans (if_pos rfl)
  · exact (findDevice_insert q _ s.devices).trans (if_neg hq)

/-- Settles O36: the two checks of `execConstruct`, each with a fault that marks no device. -/
theorem constructRefusals : Obligations.ConstructRefusals := by
  refine fun s v port tr hcall => ⟨fun check hcfg => ?_, fun hcfg hport => ?_⟩
  · rw [exec_construct_configRefused hcall hcfg, raiseFault_none_of_idle hcall]
  · rw [exec_construct_portOutOfRange hcall hcfg hport, raiseFault_none_of_idle hcall]

/-! ## The host's read of the polling words (R239) -/

theorem step_readPolling {s : State} {rest : List HostAct} (h : s.host = .readPolling :: rest) :
    step s = hostRead (s.setHost rest) := by
  simp only [step, h, fetch]

theorem hostRead_of_words {s : State} {p : Polling} {hi low : Word} (hp : s.polling = some p) (hhi : p.hi = some hi)
    (hlow : p.low = some low) : hostRead s = .next s := by
  simp only [hostRead, pollingWords, hp, hhi, hlow]

theorem hostRead_of_missing_word {s : State} {p : Polling} (hp : s.polling = some p) (hmissing : p.hi = none ∨ p.low = none) :
    hostRead s = .fault .noPollingWord := by
  rcases hmissing with hhi | hlow
  · simp only [hostRead, pollingWords, hp, hhi]
  · cases hhi : p.hi with
    | none => simp only [hostRead, pollingWords, hp, hhi]
    | some hi => simp only [hostRead, pollingWords, hp, hhi, hlow]

theorem hostRead_before_getData {s : State} (hp : s.polling = none) : hostRead s = .fault .noPollingWord := by
  simp only [hostRead, pollingWords, hp]

/-- Settles O40: the three cases of `pollingWords`. -/
theorem readingUnwrittenWordsFaults : Obligations.ReadingUnwrittenWordsFaults := by
  intro s rest hhost
  rw [step_readPolling hhost]
  exact ⟨fun _ _ _ => hostRead_of_words (s := s.setHost rest), fun _ => hostRead_of_missing_word (s := s.setHost rest),
    hostRead_before_getData (s := s.setHost rest)⟩

/-! ## A second call on the reply of the first (R237) -/

/-- `m'` is `m` with the reply `vs` written over it from logical index 0 on. -/
def HoldsReply (vs : List Byte) (m m' : Memory) : Prop :=
  (∀ k (hk : k < vs.length), Memory.read m' (swz k) = vs[k]) ∧
    ∀ a, (∀ k, k < vs.length → a ≠ swz k) → Memory.read m' a = Memory.read m a

/-- A reply written over itself leaves every byte as it is. -/
theorem HoldsReply.read_rewrite {vs : List Byte} {m m' m'' : Memory} (h : HoldsReply vs m m') (h' : HoldsReply vs m' m'')
    (a : Nat) : Memory.read m'' a = Memory.read m' a := by
  by_cases ha : ∃ k, k < vs.length ∧ a = swz k
  · obtain ⟨k, hk, rfl⟩ := ha
    rw [h.1 k hk, h'.1 k hk]
  · exact h'.2 a fun k hk hak => ha ⟨k, hk, hak⟩

/-- The bytes a buffer command replies with. -/
def replyBytes (c : Config) (d : Device) : BufCmd → Option (List Byte)
  | .reset => some (wordBytes c.idWord)
  | .origin => some d.origin
  | .recalibrate => some d.origin
  | .consoleSpecific => none
  | .unknown _ => none

/-- A command that replies only writes its reply. -/
theorem exec_of_replyBytes {s : State} {c : OpenCall} {len pos : Nat} {d : Device} (h : s.inBufferCall c len pos d)
    (hv : d.variant = .standardController) {b : BufCmd} {vs : List Byte} (hb : replyBytes s.cfg d b = some vs) :
    exec b.toInstr s = s.reply c len (bufWriteFrom s.cfg len s.buf 0 vs) := by
  cases b with
  | reset =>
    cases hb
    exact exec_reset h hv
  | origin =>
    cases hb
    exact exec_copy (.inl rfl) h hv
  | recalibrate =>
    cases hb
    exact exec_copy (.inr rfl) h hv
  | consoleSpecific => cases hb
  | unknown cmd => cases hb

theorem length_replyBytes_le {c : Config} {d : Device} {b : BufCmd} {vs : List Byte} (hb : replyBytes c d b = some vs) :
    vs.length ≤ max 4 d.origin.length := by
  cases b with
  | reset =>
    cases hb
    exact Nat.le_max_left 4 _
  | origin | recalibrate =>
    cases hb
    exact Nat.le_max_right 4 _
  | consoleSpecific => cases hb
  | unknown cmd => cases hb

section
variable {s : State} {port len : Nat} {d : Device}

/-- A call answered with a result was no longer than the capacity. -/
theorem le_bufCap_of_consumed {t : State} {n : Nat} (h : s.idleOn .standardController port d)
    (hrun : exec (.stdRunBuffer port len) s = .next t) (hresult : t.result = some (.consumed n)) : len ≤ s.cfg.bufCap := by
  by_contra hover
  have hrefused := (overlongCallIsRefused s port len d (Nat.lt_of_not_le hover)).1 h
  cases hrefused.symm.trans hrun
  cases hresult

/-- The legal calls of length 1 or more on an idle standard controller that does not trace, under the default configuration. -/
structure UntracedCall (s : State) (port len : Nat) (d : Device) : Prop where
  inv : s.Inv
  cfg : s.cfg = .default
  idle : s.idleOn .standardController port d
  off : d.traceEnabled = false
  pos : 1 ≤ len
  fits : len ≤ s.cfg.bufCap

theorem UntracedCall.origin (h : UntracedCall s port len d) : d.origin = resetOrigin .default := by
  obtain ⟨-, hfind, hv, -⟩ := h.idle
  have ⟨_, horigin⟩ := h.inv.constructed d (List.mem_append_left _ (findDevice_some hfind).2)
  rw [horigin, hv, h.cfg]

/-- The one command of such a call. -/
theorem UntracedCall.exec_eq (h : UntracedCall s port len d) :
    exec (.stdRunBuffer port len) s =
      whileOpen (exec (decodeBuf .default (Memory.read s.buf (swz 0))).toInstr
        (s.setCall { port := port, frame := .runBuffer len 1, events := [] })) returnCall := by
  have hcfg : configCheck s.cfg = none := h.cfg ▸ configCheck_default
  have hquiet : hookEvents d s.buf len = [] := by simp [hookEvents, h.off]
  rw [exec_stdRunBuffer_eq h.idle h.pos h.fits hcfg, hquiet, h.cfg]

/-- A call that replies: the default bound has room for every reply. -/
theorem UntracedCall.exec_reply (h : UntracedCall s port len d) {vs : List Byte}
    (hb : replyBytes .default d (decodeBuf .default (Memory.read s.buf (swz 0))) = some vs) :
    ∃ m, exec (.stdRunBuffer port len) s = .next { s with buf := m, result := some (.consumed len) } ∧ HoldsReply vs s.buf m := by
  obtain ⟨hcall, hfind, hv, -⟩ := h.idle
  have hd : d.asConstructed .default :=
    h.cfg ▸ h.inv.constructed d (List.mem_append_left _ (findDevice_some hfind).2)
  have hroom (k : Nat) (hk : k < vs.length) : swz k < bound s.cfg len := by
    have hlength := length_replyBytes_le hb
    rw [h.cfg]
    exact swz_lt_bound_default hd (h.cfg ▸ h.fits) (by omega)
  have hopen := inBufferCall_open h.idle len 1 []
  obtain ⟨m, hreply, hholds⟩ := reply_written (s := s.setCall ⟨port, .runBuffer len 1, []⟩) (c := ⟨port, .runBuffer len 1, []⟩)
    h.inv.bufWf hroom
  refine ⟨m, ?_, hholds⟩
  rw [h.exec_eq, exec_of_replyBytes hopen hv ((congrArg (replyBytes · d _) h.cfg).trans hb), hreply, whileOpen_open rfl]
  exact congrArg _ (closeCall_of_idle (s := s.setBuf m) hcall rfl)

/-- A call on a byte that is no command. -/
theorem UntracedCall.exec_unknown (h : UntracedCall s port len d) {cmd : Byte}
    (hb : decodeBuf .default (Memory.read s.buf (swz 0)) = .unknown cmd) :
    exec (.stdRunBuffer port len) s = .next { s with
      events := s.events ++ [.unrecognizedBufferCommand port cmd], result := some (.consumed len) } := by
  obtain ⟨hcall, -, hv, -⟩ := h.idle
  rw [h.exec_eq, hb, BufCmd.toInstr, exec_unknownBuf (inBufferCall_open h.idle len 1 []) hv, whileOpen_open rfl, returnCall,
    State.closeCall, ← hcall]
  rfl

/-- The second call meets the conditions of the first. -/
theorem UntracedCall.again (h : UntracedCall s port len d) {m : Memory} {r : Option CallResult}
    (hrun : exec (.stdRunBuffer port len) s = .next { s with buf := m, result := r }) :
    UntracedCall { s with buf := m, result := r } port len d :=
  { h with inv := h.inv.call (w := 0#32) (.inl rfl) hrun }

end

/-- Settles O26: the second call reads the first byte of the reply it finds, 0x09 of the identifier word or 0x41 of the record; the
latter is `ORIGIN`, which writes the record over itself. -/
theorem reusedBufferRunsReplyByte : Obligations.ReusedBufferRunsReplyByte := by
  intro s t port len d hinv hcfg hidle hoff hpos hrun hresult
  have first : UntracedCall s port len d := ⟨hinv, hcfg, hidle, hoff, hpos, le_bufCap_of_consumed hidle hrun hresult⟩
  refine ⟨fun hbyte => ?_, fun hbyte => ?_⟩
  · obtain ⟨m, hfirst, hholds⟩ := first.exec_reply (vs := wordBytes 0x09000000#32) (by rw [hbyte]; rfl)
    cases hrun.symm.trans hfirst
    have hnine : Memory.read m (swz 0) = 0x09#8 := hholds.1 0 (by decide)
    exact (first.again hfirst).exec_unknown (by rw [hnine]; rfl)
  · have hcopy : replyBytes .default d (decodeBuf .default (Memory.read s.buf (swz 0))) = some (resetOrigin .default) := by
      rw [← first.origin]
      rcases hbyte with hbyte | hbyte
      · rw [hbyte]
        rfl
      · rw [hbyte]
        rfl
    obtain ⟨m, hfirst, hholds⟩ := first.exec_reply hcopy
    cases hrun.symm.trans hfirst
    have horigin : Memory.read m (swz 0) = 0x41#8 := hholds.1 0 (by decide)
    obtain ⟨m', hsecond, hholds'⟩ := (first.again hfirst).exec_reply (vs := resetOrigin .default) (by
      rw [horigin, ← first.origin]; rfl)
    exact ⟨horigin, m', hsecond, hholds.read_rewrite hholds'⟩

end Sys2Proof.Machine
end
